-- ==== Sys2Proof/Word.lean ====
section
/-! DEFINITION. The word types of the machine (00_scope R6, 30_encoding R61): a byte, the 16-bit word that holds an
opcode, `pc` or `I`, and the 4-bit and 12-bit operand fields. All quantities are unsigned (R6). -/

namespace Sys2Proof

/-- A byte: a register of `V`, a memory cell, a pixel, one half of the timer pair. -/
abbrev Byte := BitVec 8

/-- A 16-bit word: an opcode (R60), `pc` (R13), `I` (R14), a stack entry (R15), the timer pair (R16). -/
abbrev Word := BitVec 16

/-- A 4-bit opcode field: a register number, a row count, a key number (R61). -/
abbrev Nibble := BitVec 4

/-- The 12-bit address operand `nnn` (R61). -/
abbrev Addr12 := BitVec 12

end Sys2Proof
end

