-- ==== Sys2Proof/Config.lean ====
section
/-! DEFINITION. What the implementation fixes (00_scope R5) and the free values: the sizes, the straps with their
defaults, the moves the agents can make, and the three opaque families of draws, of which nothing can be proved. -/

namespace Sys2Proof.Config

/-- `MEM_SIZE` (R5): bytes of addressable memory, addresses 0x000 to 0xFFF. -/
abbrev memSize : Nat := 4096

/-- The highest address a data access may touch (R45). -/
abbrev topAddress : Nat := 0xFFF

/-- The highest `pc` an instruction can be fetched from (R46). -/
abbrev topFetch : Nat := 0xFFE

/-- `LOAD_BASE` (R5): where the image goes and where `pc` starts. -/
abbrev loadBase : Nat := 0x200

/-- `IMAGE_MAX` (R5): the largest program image. -/
abbrev imageMax : Nat := 3584

/-- The byte `RND` draws (R131, D21): a free value at each draw, under no law. Log entry 9. -/
opaque randomByte : Nat → Byte

/-- `fault_opcode` after an `InstructionFlowGuard` (R204, D24): a free value at each draw. Log entry 10. -/
opaque guardOpcode : Nat → Word

end Sys2Proof.Config

namespace Sys2Proof

/-- The three straps the host presents at reset (R19, R24). -/
structure Straps where
  /-- The Super-CHIP-8 behaviour switch. -/
  isSuper : Bool
  /-- The display geometry switch. -/
  isExtended : Bool
  /-- `true` (1) wraps sprites horizontally, `false` (0) clips them. -/
  wrapPolicy : Bool
  deriving DecidableEq, Repr

/-- The straps of `State.reset`: R5 gives the defaults 1 and 0 of `is_super` and `is_extended`; `wrap_policy` has none, and
the value `true` is the model's. DESIGN CHOICE, unsafe for runs from `State.reset`: log entry 12. -/
def Config.resetStraps : Straps := ⟨true, false, true⟩

/-- One atomic step of one agent (R8, R215). -/
inductive Machine.Move where
  /-- A step of the core (R80). -/
  | core
  /-- A step of the Timer Service (R212). -/
  | tick
  /-- The host drives the level inputs `key_down[0..15]` (R24, R217). -/
  | keyLevels (down : BitVec 16)
  /-- The host presents the key event `some(id)` (R24, R85). -/
  | keyEvent (id : Nibble)
  /-- The host resets the machine with an image and straps (R240). -/
  | reset (image : List Byte) (straps : Straps)
  deriving DecidableEq, Repr

/-- The moves of the agents between two ticks that the Timer Service owes (R215, D18): at each draw any finite list of moves of
any agent, more ticks among them, under no law. A free value. Log entries 3 and 4. -/
opaque Config.freeMoves : Nat → List Machine.Move

end Sys2Proof
end

