-- ==== Sys2Proof/Syntax.lean ====
section
/-! DEFINITION. The instructions: one constructor per row of spec/opcode_table.json, in the table's order. Every operand
has the width of its opcode field (30_encoding R61, R63). -/

namespace Sys2Proof

/-- The 34 instructions of 30_encoding R65. `SHR` and `SHL` keep the `y` field their word carries, which they ignore (R68). -/
inductive Instr where
  /-- `00E0` clear the display (R162). -/
  | cls
  /-- `00EE` return from subroutine (R100). -/
  | ret
  /-- `1nnn` jump (R101). -/
  | jp (nnn : Addr12)
  /-- `2nnn` call subroutine (R102). -/
  | call (nnn : Addr12)
  /-- `3xkk` skip if equal to immediate (R103). -/
  | seImm (x : Nibble) (kk : Byte)
  /-- `4xkk` skip if not equal to immediate (R104). -/
  | sneImm (x : Nibble) (kk : Byte)
  /-- `5xy0` skip if registers equal (R105). -/
  | seReg (x y : Nibble)
  /-- `6xkk` load immediate (R120). -/
  | ldImm (x : Nibble) (kk : Byte)
  /-- `7xkk` add immediate (R121). -/
  | addImm (x : Nibble) (kk : Byte)
  /-- `8xy0` copy register (R122). -/
  | ldReg (x y : Nibble)
  /-- `8xy1` bitwise OR (R123). -/
  | orReg (x y : Nibble)
  /-- `8xy2` bitwise AND (R124). -/
  | andReg (x y : Nibble)
  /-- `8xy3` bitwise exclusive OR (R125). -/
  | xorReg (x y : Nibble)
  /-- `8xy4` add with carry out (R126). -/
  | addReg (x y : Nibble)
  /-- `8xy5` subtract (R127). -/
  | subReg (x y : Nibble)
  /-- `8xy6` shift right by one (R129). -/
  | shr (x y : Nibble)
  /-- `8xy7` reverse subtract (R128). -/
  | subnReg (x y : Nibble)
  /-- `8xyE` shift left by one (R130). -/
  | shl (x y : Nibble)
  /-- `9xy0` skip if registers differ (R106). -/
  | sneReg (x y : Nibble)
  /-- `Annn` load the index register (R140). -/
  | setIndex (nnn : Addr12)
  /-- `Bnnn` jump with offset `V0` (R107). -/
  | jpr (nnn : Addr12)
  /-- `Cxkk` masked random byte (R131). -/
  | rnd (x : Nibble) (kk : Byte)
  /-- `Dxyn` draw a sprite (R163). -/
  | drw (x y n : Nibble)
  /-- `Ex9E` skip if key pressed (R180). -/
  | skp (x : Nibble)
  /-- `ExA1` skip if key not pressed (R181). -/
  | sknp (x : Nibble)
  /-- `Fx07` read the delay timer (R183). -/
  | getD (x : Nibble)
  /-- `Fx0A` wait for a key (R182). -/
  | getK (x : Nibble)
  /-- `Fx15` write the delay timer (R184). -/
  | setD (x : Nibble)
  /-- `Fx18` write the sound timer (R185). -/
  | setS (x : Nibble)
  /-- `Fx1E` add a register to the index register (R141). -/
  | addIndex (x : Nibble)
  /-- `Fx29` point the index register at a font glyph (R142). -/
  | setCh (x : Nibble)
  /-- `Fx33` store binary-coded decimal (R143). -/
  | std (x : Nibble)
  /-- `Fx55` store registers `V0` to `Vx` (R144). -/
  | str (x : Nibble)
  /-- `Fx65` load registers `V0` to `Vx` (R145). -/
  | ldr (x : Nibble)
  deriving DecidableEq, Repr

end Sys2Proof
end

