-- ==== Sys2Proof/WellFormed.lean ====
section
/-! DEFINITION. The checks on what is given to the machine. An `Instr` is well-formed by its type: every operand has the
width of its opcode field and no field of a legal word is reserved (30_encoding R63, R68). What can be ill-formed is the
program image of a reset (70_reset R242) and a host move that carries one. -/

namespace Sys2Proof

/-- Every instruction term is well-formed: the operand types are the field widths (R61) and every value of a field is
legal (R68, 93_implementation_defined section 2). -/
def Instr.wellFormed (_ : Instr) : Bool := true

/-- "The only check is the length: more than 3584 bytes is rejected by the loader" (R242). -/
def imageFits (image : List Byte) : Bool := decide (image.length ≤ Config.imageMax)

end Sys2Proof
end

