-- ==== Sys2Proof/Decode.lean ====
section
/-! DEFINITION. The Decoder and the Dispatcher's opcode map (30_encoding R61 to R66): the fields of a word, the decoder
(total; it rejects a word by the class in which nothing matches), the encoder, and the pattern list of R65 as data. -/

namespace Sys2Proof

/-- Why a word matches no row of R65: one name per row of R66's table of illegal values. Each of them raises
`IllegalOpcode` (R87). -/
inductive Illegal where
  /-- `0nnn` except `00E0` and `00EE`. -/
  | class0
  /-- `5xyN` with `N != 0`. -/
  | class5
  /-- `8xyN` with `N` in 8 to D and F. -/
  | class8
  /-- `9xyN` with `N != 0`. -/
  | class9
  /-- `Exkk` with `kk` neither 9E nor A1. -/
  | classE
  /-- `Fxkk` with an unlisted `kk`. -/
  | classF
  deriving DecidableEq, Repr

/-- Field 3, the opcode class (R61). -/
def fieldC (op : Word) : Nibble := op.extractLsb' 12 4
/-- Field 2, register X (R61). -/
def fieldX (op : Word) : Nibble := op.extractLsb' 8 4
/-- Field 1, register Y (R61). -/
def fieldY (op : Word) : Nibble := op.extractLsb' 4 4
/-- Field 0, the row count or sub-opcode (R61). -/
def fieldN (op : Word) : Nibble := op.extractLsb' 0 4
/-- The low byte (R61). -/
def fieldKK (op : Word) : Byte := op.extractLsb' 0 8
/-- The low 12 bits (R61). -/
def fieldNNN (op : Word) : Addr12 := op.extractLsb' 0 12

/-- Class 8: nine operations selected by `n` (R65 rows 10 to 18). -/
def decodeClass8 (x y n : Nibble) : Except Illegal Instr :=
  if n = 0x0#4 then .ok (.ldReg x y)
  else if n = 0x1#4 then .ok (.orReg x y)
  else if n = 0x2#4 then .ok (.andReg x y)
  else if n = 0x3#4 then .ok (.xorReg x y)
  else if n = 0x4#4 then .ok (.addReg x y)
  else if n = 0x5#4 then .ok (.subReg x y)
  else if n = 0x6#4 then .ok (.shr x y)
  else if n = 0x7#4 then .ok (.subnReg x y)
  else if n = 0xE#4 then .ok (.shl x y)
  else .error .class8

/-- Class E: two key skips selected by `kk` (R65 rows 24 and 25). -/
def decodeClassE (x : Nibble) (kk : Byte) : Except Illegal Instr :=
  if kk = 0x9E#8 then .ok (.skp x)
  else if kk = 0xA1#8 then .ok (.sknp x)
  else .error .classE

/-- Class F: nine timer, key, index and memory operations selected by `kk` (R65 rows 26 to 34). -/
def decodeClassF (x : Nibble) (kk : Byte) : Except Illegal Instr :=
  if kk = 0x07#8 then .ok (.getD x)
  else if kk = 0x0A#8 then .ok (.getK x)
  else if kk = 0x15#8 then .ok (.setD x)
  else if kk = 0x18#8 then .ok (.setS x)
  else if kk = 0x1E#8 then .ok (.addIndex x)
  else if kk = 0x29#8 then .ok (.setCh x)
  else if kk = 0x33#8 then .ok (.std x)
  else if kk = 0x55#8 then .ok (.str x)
  else if kk = 0x65#8 then .ok (.ldr x)
  else .error .classF

/-- The Dispatcher as a function of the fields of the word (R64, R65): the one row that matches, or the class in which none
does (R66). -/
def decodeFields (c x y n : Nibble) (kk : Byte) (nnn : Addr12) : Except Illegal Instr :=
  if c = 0x0#4 then
    if nnn = 0x0E0#12 then .ok .cls
    else if nnn = 0x0EE#12 then .ok .ret
    else .error .class0
  else if c = 0x1#4 then .ok (.jp nnn)
  else if c = 0x2#4 then .ok (.call nnn)
  else if c = 0x3#4 then .ok (.seImm x kk)
  else if c = 0x4#4 then .ok (.sneImm x kk)
  else if c = 0x5#4 then if n = 0x0#4 then .ok (.seReg x y) else .error .class5
  else if c = 0x6#4 then .ok (.ldImm x kk)
  else if c = 0x7#4 then .ok (.addImm x kk)
  else if c = 0x8#4 then decodeClass8 x y n
  else if c = 0x9#4 then if n = 0x0#4 then .ok (.sneReg x y) else .error .class9
  else if c = 0xA#4 then .ok (.setIndex nnn)
  else if c = 0xB#4 then .ok (.jpr nnn)
  else if c = 0xC#4 then .ok (.rnd x kk)
  else if c = 0xD#4 then .ok (.drw x y n)
  else if c = 0xE#4 then decodeClassE x kk
  else decodeClassF x kk

/-- The decoder: a pure function of the 16 bits of the word (R82). -/
def decode (op : Word) : Except Illegal Instr :=
  decodeFields (fieldC op) (fieldX op) (fieldY op) (fieldN op) (fieldKK op) (fieldNNN op)

/-- The word of the byte at the lower address (bits 15 to 8) and the byte at the higher address (bits 7 to 0) (R42). -/
def wordOfBytes (hi lo : Byte) : Word := hi ++ lo

/-- The decoder on bytes as they stand in memory: the first two are the word, the rest is left; fewer than two bytes hold no
word. -/
def decodeBytes : List Byte → Option (Except Illegal Instr × List Byte)
  | hi :: lo :: rest => some (decode (wordOfBytes hi lo), rest)
  | _ => none

/-- Format `ADDR` (R62): class and 12-bit address. -/
def formatAddr (c : Nibble) (nnn : Addr12) : Word := c ++ nnn
/-- Formats `XI` and `XS` (R62): class, register, low byte. -/
def formatXI (c x : Nibble) (kk : Byte) : Word := c ++ x ++ kk
/-- Formats `XY` and `XYN` (R62): class, two registers, low nibble. -/
def formatXY (c x y n : Nibble) : Word := c ++ x ++ y ++ n

/-- The encoder: the word of an instruction, from the pattern column of R65. -/
def encode : Instr → Word
  | .cls => 0x00E0#16
  | .ret => 0x00EE#16
  | .jp nnn => formatAddr 0x1#4 nnn
  | .call nnn => formatAddr 0x2#4 nnn
  | .seImm x kk => formatXI 0x3#4 x kk
  | .sneImm x kk => formatXI 0x4#4 x kk
  | .seReg x y => formatXY 0x5#4 x y 0x0#4
  | .ldImm x kk => formatXI 0x6#4 x kk
  | .addImm x kk => formatXI 0x7#4 x kk
  | .ldReg x y => formatXY 0x8#4 x y 0x0#4
  | .orReg x y => formatXY 0x8#4 x y 0x1#4
  | .andReg x y => formatXY 0x8#4 x y 0x2#4
  | .xorReg x y => formatXY 0x8#4 x y 0x3#4
  | .addReg x y => formatXY 0x8#4 x y 0x4#4
  | .subReg x y => formatXY 0x8#4 x y 0x5#4
  | .shr x y => formatXY 0x8#4 x y 0x6#4
  | .subnReg x y => formatXY 0x8#4 x y 0x7#4
  | .shl x y => formatXY 0x8#4 x y 0xE#4
  | .sneReg x y => formatXY 0x9#4 x y 0x0#4
  | .setIndex nnn => formatAddr 0xA#4 nnn
  | .jpr nnn => formatAddr 0xB#4 nnn
  | .rnd x kk => formatXI 0xC#4 x kk
  | .drw x y n => formatXY 0xD#4 x y n
  | .skp x => formatXI 0xE#4 x 0x9E#8
  | .sknp x => formatXI 0xE#4 x 0xA1#8
  | .getD x => formatXI 0xF#4 x 0x07#8
  | .getK x => formatXI 0xF#4 x 0x0A#8
  | .setD x => formatXI 0xF#4 x 0x15#8
  | .setS x => formatXI 0xF#4 x 0x18#8
  | .addIndex x => formatXI 0xF#4 x 0x1E#8
  | .setCh x => formatXI 0xF#4 x 0x29#8
  | .std x => formatXI 0xF#4 x 0x33#8
  | .str x => formatXI 0xF#4 x 0x55#8
  | .ldr x => formatXI 0xF#4 x 0x65#8

/-- The high byte of a word, stored at the lower address (R42). -/
def highByte (op : Word) : Byte := op.extractLsb' 8 8
/-- The low byte of a word, stored at the higher address (R42). -/
def lowByte (op : Word) : Byte := op.extractLsb' 0 8

/-- The bytes of an instruction as they stand in memory (R42). -/
def encodeBytes (i : Instr) : List Byte := [highByte (encode i), lowByte (encode i)]

/-- The instruction the decoder reads from the table's numbering of the bits: bit 0 is the least significant bit of the one
16-bit word, and bits at and above `nbits` are 0. The word is laid out as the hardware stores it (R42) and given to
`decodeBytes`. -/
def decodeTableWord (nbits w : Nat) : Option Instr :=
  let op : Word := BitVec.ofNat 16 (w % 2 ^ nbits)
  match decodeBytes [highByte op, lowByte op] with
  | some (.ok i, _) => some i
  | _ => none

/-- A row of the pattern list: a word `op` selects it when `op &&& mask = pattern` (R64, R65). -/
structure OpcodeRow where
  mnemonic : String
  pattern : Word
  mask : Word
  deriving DecidableEq, Repr

/-- The row an instruction is encoded by (R65). -/
def Instr.row : Instr → OpcodeRow
  | .cls => ⟨"CLS", 0x00E0#16, 0xFFFF#16⟩
  | .ret => ⟨"RET", 0x00EE#16, 0xFFFF#16⟩
  | .jp _ => ⟨"JP_addr", 0x1000#16, 0xF000#16⟩
  | .call _ => ⟨"CALL_addr", 0x2000#16, 0xF000#16⟩
  | .seImm _ _ => ⟨"SE_Vx_imm", 0x3000#16, 0xF000#16⟩
  | .sneImm _ _ => ⟨"SNE_Vx_imm", 0x4000#16, 0xF000#16⟩
  | .seReg _ _ => ⟨"SE_Vx_Vy", 0x5000#16, 0xF00F#16⟩
  | .ldImm _ _ => ⟨"LD_Vx_imm", 0x6000#16, 0xF000#16⟩
  | .addImm _ _ => ⟨"ADD_Vx_imm", 0x7000#16, 0xF000#16⟩
  | .ldReg _ _ => ⟨"LD_Vx_Vy", 0x8000#16, 0xF00F#16⟩
  | .orReg _ _ => ⟨"OR_Vx_Vy", 0x8001#16, 0xF00F#16⟩
  | .andReg _ _ => ⟨"AND_Vx_Vy", 0x8002#16, 0xF00F#16⟩
  | .xorReg _ _ => ⟨"XOR_Vx_Vy", 0x8003#16, 0xF00F#16⟩
  | .addReg _ _ => ⟨"ADD_Vx_Vy", 0x8004#16, 0xF00F#16⟩
  | .subReg _ _ => ⟨"SUB_Vx_Vy", 0x8005#16, 0xF00F#16⟩
  | .shr _ _ => ⟨"SHR_Vx", 0x8006#16, 0xF00F#16⟩
  | .subnReg _ _ => ⟨"SUBN_Vx_Vy", 0x8007#16, 0xF00F#16⟩
  | .shl _ _ => ⟨"SHL_Vx", 0x800E#16, 0xF00F#16⟩
  | .sneReg _ _ => ⟨"SNE_Vx_Vy", 0x9000#16, 0xF00F#16⟩
  | .setIndex _ => ⟨"SetIndex_addr", 0xA000#16, 0xF000#16⟩
  | .jpr _ => ⟨"JPr_V0_addr", 0xB000#16, 0xF000#16⟩
  | .rnd _ _ => ⟨"RND_Vx_mask", 0xC000#16, 0xF000#16⟩
  | .drw _ _ _ => ⟨"DRW_Vx_Vy_n", 0xD000#16, 0xF000#16⟩
  | .skp _ => ⟨"SKP_Vx", 0xE09E#16, 0xF0FF#16⟩
  | .sknp _ => ⟨"SKNP_Vx", 0xE0A1#16, 0xF0FF#16⟩
  | .getD _ => ⟨"GetD_Vx", 0xF007#16, 0xF0FF#16⟩
  | .getK _ => ⟨"GetK_Vx", 0xF00A#16, 0xF0FF#16⟩
  | .setD _ => ⟨"SetD_Vx", 0xF015#16, 0xF0FF#16⟩
  | .setS _ => ⟨"SetS_Vx", 0xF018#16, 0xF0FF#16⟩
  | .addIndex _ => ⟨"AddIndex_Vx", 0xF01E#16, 0xF0FF#16⟩
  | .setCh _ => ⟨"SetCh_Vx", 0xF029#16, 0xF0FF#16⟩
  | .std _ => ⟨"STD_Vx", 0xF033#16, 0xF0FF#16⟩
  | .str _ => ⟨"STR_Vx", 0xF055#16, 0xF0FF#16⟩
  | .ldr _ => ⟨"LDR_Vx", 0xF065#16, 0xF0FF#16⟩

/-- The pattern list of R65, in its order: the row of one instruction of each constructor. -/
def opcodeRows : List OpcodeRow :=
  ([.cls, .ret, .jp 0, .call 0, .seImm 0 0, .sneImm 0 0, .seReg 0 0, .ldImm 0 0, .addImm 0 0,
    .ldReg 0 0, .orReg 0 0, .andReg 0 0, .xorReg 0 0, .addReg 0 0, .subReg 0 0, .shr 0 0] : List Instr).map Instr.row ++
  ([.subnReg 0 0, .shl 0 0, .sneReg 0 0, .setIndex 0, .jpr 0, .rnd 0 0, .drw 0 0 0, .skp 0, .sknp 0,
    .getD 0, .getK 0, .setD 0, .setS 0, .addIndex 0, .setCh 0, .std 0, .str 0, .ldr 0] : List Instr).map Instr.row

end Sys2Proof
end

