-- ==== Sys2Proof/Machine/State.lean ====
section
/-! DEFINITION. The state of the machine (10_state R10 to R27), as plain data, the reasons a step can stop, and the state
right after reset. -/

namespace Sys2Proof.Machine

/-- A sparse list of cells, addresses strictly rising, no entry equal to what an unlisted address reads as. `memory` and
`display` are held so (log entries 1 and 15). -/
abbrev Store := List Host.Cell

/-- The run state (R20). -/
inductive RunState where
  /-- The core fetches and executes. -/
  | running
  /-- The core waits in `GetK` for a key event. -/
  | awaitingKey
  /-- A fault has occurred; only reset leaves this state. -/
  | halted
  deriving DecidableEq, Repr

/-- The number the spec gives a run state (R20, D23). -/
def RunState.code : RunState → Nat
  | .running => 0
  | .awaitingKey => 1
  | .halted => 2

/-- The fault kinds of R200; `none` is "no fault has occurred". -/
inductive ErrorKind where
  | none
  /-- `CALL` with the stack full (R201). -/
  | stackOverflow
  /-- `RET` with the stack empty (R202). -/
  | stackUnderflow
  /-- The fetched word matches no row (R203). -/
  | illegalOpcode
  /-- A fetch with `pc > 0xFFE` (R204). -/
  | instructionFlowGuard
  /-- A data access above 0xFFF (R205). -/
  | addressOutOfRange
  deriving DecidableEq, Repr

/-- The code `error_kind` holds, 3 bits (R21, R200). -/
def ErrorKind.code : ErrorKind → BitVec 3
  | .none => 0
  | .stackOverflow => 1
  | .stackUnderflow => 2
  | .illegalOpcode => 3
  | .instructionFlowGuard => 4
  | .addressOutOfRange => 5

/-- An event of the output stream (R23). -/
inductive Event where
  /-- The finished display buffer and its geometry (R167). -/
  | displayUpdate (buffer : Store) (width height : Nat)
  /-- The sound timer went from 1 to 0 (R213). -/
  | beep
  deriving DecidableEq, Repr

/-- The machine state: the aggregate of R10, the event stream and the key levels of R23 and R24, and the model's own two
fields `schedule` and `draws`. -/
structure State where
  /-- `memory` (R17). -/
  mem : Store
  /-- `V[0]` to `V[15]` (R11). -/
  regs : Vector Byte 16
  /-- `stack[0]` to `stack[15]` (R15). -/
  stack : Vector Word 16
  /-- `sp`, 0 to 16 (R15). -/
  sp : Fin 17
  /-- `pc` (R13). -/
  pc : Word
  /-- `I` (R14). -/
  index : Word
  /-- The timer pair, `delay` in bits 15 to 8 and `sound` in bits 7 to 0 (R16). -/
  timers : Word
  /-- `display` (R18). -/
  display : Store
  /-- `is_extended` (R19). -/
  isExtended : Bool
  /-- `is_super` (R19). -/
  isSuper : Bool
  /-- `wrap_policy`, `true` = wrap (R19). -/
  wrapPolicy : Bool
  /-- `run_state` (R20). -/
  runState : RunState
  /-- `key_dest` (R22). -/
  keyDest : Nibble
  /-- `error_kind` (R21). -/
  errorKind : ErrorKind
  /-- `fault_pc` (R21). -/
  faultPc : Word
  /-- `fault_opcode` (R21). -/
  faultOpcode : Word
  /-- The output event stream, oldest first (R23). -/
  events : List Event
  /-- The level inputs `key_down[0..15]`, bit `k` for key `k` (R24). -/
  keyDown : BitVec 16
  /-- The model's own: the agents' moves up to the next free draw of moves, in order; where it ends, the Timer Service ticks
  (log entries 3 and 4). -/
  schedule : List Move
  /-- The model's own: how many free values have been drawn (log entries 4, 9 to 11). -/
  draws : Nat
  deriving DecidableEq, Repr

/-- The machine right after reset with an empty image and `Config.resetStraps` (R27, R240). -/
def State.reset : State where
  mem := []
  regs := Vector.replicate 16 0x00#8
  stack := Vector.replicate 16 0x0000#16
  sp := 0
  pc := 0x0200#16
  index := 0x0000#16
  timers := 0x0000#16
  display := []
  isExtended := Config.resetStraps.isExtended
  isSuper := Config.resetStraps.isSuper
  wrapPolicy := Config.resetStraps.wrapPolicy
  runState := .running
  keyDest := 0x0#4
  errorKind := .none
  faultPc := 0x0000#16
  faultOpcode := 0x0000#16
  events := []
  keyDown := 0x0000#16
  schedule := []
  draws := 0

/-- Why a step stops with a fault. The machine's own five faults are no stops: their entry is a next state (R206). -/
inductive Fault where
  /-- Raised by a move of the core while `run_state = Halted`: "the core has no step, for good" (R86). Safe: nothing can be
  proved of a next state the machine does not have. -/
  | coreHalted
  deriving DecidableEq, Repr

/-- Why a step is refused. -/
inductive Refusal where
  /-- Raised by an arm of `exec` for an instruction that has no meaning yet. Safe. -/
  | notModelled (mnemonic : String)
  /-- Raised by a host reset whose image is longer than 3584 bytes: it "is rejected by the loader, the state is not defined
  by this spec in that case, and no instruction runs" (R242). Safe. -/
  | imageTooLarge
  deriving DecidableEq, Repr

end Sys2Proof.Machine
end

