-- ==== Sys2Proof/Machine/Ops.lean ====
section
/-! DEFINITION. The named operations over the state (00_scope R7): sparse stores, memory with its reset contents, the
registers, `pc`, the return stack, the timer pair, the display bytes, the event stream, and taking a fault (60 R206). -/

namespace Sys2Proof.Machine

/-! ### Sparse stores -/

/-- The byte at a cell; an unlisted cell reads as `dflt` gives it. -/
def Store.read (dflt : Nat → Byte) : Store → Nat → Byte
  | [], a => dflt a
  | (k, v) :: rest, a => if k = a then v else Store.read dflt rest a

/-- The store without its entry for `a`. -/
def Store.drop (a : Nat) (m : Store) : Store := m.filter fun cell => cell.1 != a

/-- The store with the entry `(a, b)` put before the first higher address. -/
def Store.place (a : Nat) (b : Byte) : Store → Store
  | [] => [(a, b)]
  | (k, v) :: rest => if a < k then (a, b) :: (k, v) :: rest else (k, v) :: Store.place a b rest

/-- A write: the old entry goes, and a new one is put in unless it would say what an unlisted cell reads as. -/
def Store.write (dflt : Nat → Byte) (m : Store) (a : Nat) (b : Byte) : Store :=
  if b = dflt a then Store.drop a m else Store.place a b (Store.drop a m)

/-- The canonical form: addresses strictly rising and below `size`, no entry equal to what an unlisted cell reads as. -/
abbrev Store.wf (dflt : Nat → Byte) (size : Nat) (m : Store) : Prop :=
  (m.map Prod.fst).Pairwise (· < ·) ∧ ∀ cell ∈ m, cell.1 < size ∧ cell.2 ≠ dflt cell.1

/-! ### Memory -/

/-- `FONT`: the 80 bytes of R54, sixteen glyphs of five bytes. Log entry 2. -/
def font : List Byte :=
  ([0xF0, 0x90, 0x90, 0x90, 0xF0, 0x20, 0x60, 0x20, 0x20, 0x70, 0xF0, 0x10, 0xF0, 0x80, 0xF0, 0xF0, 0x10, 0xF0, 0x10, 0xF0,
    0x90, 0x90, 0xF0, 0x10, 0x10, 0xF0, 0x80, 0xF0, 0x10, 0xF0, 0xF0, 0x80, 0xF0, 0x90, 0xF0, 0xF0, 0x10, 0x20, 0x40, 0x40]
      : List Byte) ++
  ([0xF0, 0x90, 0xF0, 0x90, 0xF0, 0xF0, 0x90, 0xF0, 0x10, 0xF0, 0xF0, 0x90, 0xF0, 0x90, 0x90, 0xE0, 0x90, 0xE0, 0x90, 0xE0,
    0xF0, 0x80, 0x80, 0x80, 0xF0, 0xE0, 0x90, 0x90, 0x90, 0xE0, 0xF0, 0x80, 0xF0, 0x80, 0xF0, 0xF0, 0x80, 0xF0, 0x80, 0x80]
      : List Byte)

/-- What a byte nothing has written reads as: the reset contents without an image, the font at 0x000 to 0x04F and 0x00
elsewhere (R27, R41). Log entry 1. -/
def resetByte (a : Nat) : Byte := font.getD a 0x00#8

/-- The canonical form of `memory`. -/
abbrev Memory.wf (m : Store) : Prop := Store.wf resetByte Config.memSize m

/-- `MemRead(a, 1)` for an address in range (R45). -/
def State.readMem (s : State) (a : Nat) : Byte := Store.read resetByte s.mem a

/-- `MemWrite(a, 1, b)` for an address in range (R45). -/
def State.writeMem (s : State) (a : Nat) (b : Byte) : State := { s with mem := Store.write resetByte s.mem a b }

/-- Byte writes at `a`, `a + 1`, ... in ascending order (R42, R44). -/
def storeBytes (m : Store) (a : Nat) : List Byte → Store
  | [] => m
  | b :: bs => storeBytes (Store.write resetByte m a b) (a + 1) bs

/-- Whether `hi`, the highest address an instruction would touch, exists (R45, R146). -/
def addressExists (hi : Nat) : Bool := decide (hi ≤ Config.topAddress)

/-- `Fetch16(a)` for `a <= 0xFFE`: big-endian (R42, R46). -/
def State.fetch16 (s : State) (a : Nat) : Word := wordOfBytes (s.readMem a) (s.readMem (a + 1))

/-! ### Registers and `pc` -/

/-- `V[x]` (R11). -/
def State.getReg (s : State) (x : Nibble) : Byte := s.regs[x.toNat]'x.isLt

/-- `V[x] <- v` (R11). -/
def State.setReg (s : State) (x : Nibble) (v : Byte) : State := { s with regs := s.regs.set x.toNat v x.isLt }

/-- `pc <- t`. -/
def State.setPc (s : State) (t : Word) : State := { s with pc := t }

/-- `I <- v`. -/
def State.setIndex (s : State) (v : Word) : State := { s with index := v }

/-- The default advance, `pc <- pc + 2` (R84). -/
def State.advance (s : State) : State := s.setPc (s.pc + 2)

/-- `skip(c)`: `pc <- pc + 4` when `c` holds, else `pc <- pc + 2` (R108). -/
def State.skip (s : State) (c : Bool) : State := s.setPc (s.pc + if c then 4 else 2)

/-! ### The return stack -/

/-- Push a return address; none when the stack holds 16 (R15, R102). -/
def State.push? (s : State) (a : Word) : Option State :=
  if h : s.sp.val < 16 then some { s with stack := s.stack.set s.sp.val a h, sp := ⟨s.sp.val + 1, by omega⟩ } else none

/-- Pop a return address; none when the stack is empty. The entry is not cleared (R15, R100). -/
def State.pop? (s : State) : Option (Word × State) :=
  if h : 0 < s.sp.val then
    some (s.stack[s.sp.val - 1]'(by omega), { s with sp := ⟨s.sp.val - 1, by omega⟩ })
  else none

/-! ### The timer pair -/

/-- `timers[15:8]` (R16). -/
def State.delay (s : State) : Byte := s.timers.extractLsb' 8 8

/-- `timers[7:0]` (R16). -/
def State.sound (s : State) : Byte := s.timers.extractLsb' 0 8

/-- `AtomicPairUpdate(f)`: the whole 16-bit unit is replaced by `f(delay, sound)` in one indivisible step (R214). -/
def State.atomicPairUpdate (s : State) (f : Byte → Byte → Byte × Byte) : State :=
  { s with timers := (f s.delay s.sound).1 ++ (f s.delay s.sound).2 }

/-! ### The display -/

/-- `W` (R160). -/
def State.width (s : State) : Nat := if s.isExtended then 128 else 64

/-- `H` (R160). -/
def State.height (s : State) : Nat := if s.isExtended then 64 else 32

/-- A display byte nothing has written is 0x00 (R18, R27). -/
def unsetPixel (_ : Nat) : Byte := 0x00#8

/-- The byte at an offset of the buffer. -/
def Display.read (d : Store) (o : Nat) : Byte := Store.read unsetPixel d o

/-- The canonical form of a buffer of `size` bytes, each 0x00 or 0xFF (R18, R25 (c)). -/
abbrev Display.wf (size : Nat) (d : Store) : Prop := Store.wf unsetPixel size d ∧ ∀ cell ∈ d, cell.2 = 0xFF#8

/-- The offset of pixel `(X, Y)`: `Y*W + X`, the stride being `W` (R161). -/
def State.pixelOffset (s : State) (X Y : Nat) : Nat := Y * s.width + X

/-- `Pixel(X, Y)` (R161). -/
def State.pixel (s : State) (X Y : Nat) : Byte := Display.read s.display (s.pixelOffset X Y)

/-- The `W*H` bytes of the active geometry in offset order, as the display collaborator sees them (R161). -/
def displayBytes (d : Store) (width height : Nat) : List Byte := (List.range (width * height)).map (Display.read d)

/-! ### Events -/

/-- `emit DisplayUpdate`: the buffer as it stands and the geometry (R167). -/
def State.emitDisplayUpdate (s : State) : State :=
  { s with events := s.events ++ [.displayUpdate s.display s.width s.height] }

/-- `emit Beep` (R213). -/
def State.emitBeep (s : State) : State := { s with events := s.events ++ [.beep] }

/-! ### The schedule -/

/-- The moves up to the next draw are drawn: a free finite list, anew each time (R215, D18; log entry 4). -/
def State.drawMoves (s : State) : State := { s with schedule := Config.freeMoves s.draws, draws := s.draws + 1 }

/-! ### Taking a fault -/

/-- `raise F(fault_opcode = w, fault_pc = pc)`: the error latch is written and the core halts; nothing else changes (R206).
There is no handler to go to and no return but reset (R209). -/
def State.raise (s : State) (kind : ErrorKind) (w : Word) : State :=
  { s with errorKind := kind, faultPc := s.pc, faultOpcode := w, runState := .halted }

end Sys2Proof.Machine
end

