-- ==== Sys2Proof/Machine/Flags.lean ====
section
/-! DEFINITION. The flag computations: what the six flag-defining instructions write to `VF` (10_state R12), and the order
of the two writes (42 R132). -/

namespace Sys2Proof.Machine

/-- `VF` is `V[15]` (R11). -/
abbrev VF : Nibble := 0xF#4

/-- A flag as all eight bits of `VF`: 0x00 or 0x01 (R12). -/
def flagByte (b : Bool) : Byte := if b then 0x01#8 else 0x00#8

/-- `ADD Vx,Vy`: 1 if the 9-bit sum exceeds 255 (R126). -/
def carryFlag (a b : Byte) : Byte := flagByte (decide (255 < a.toNat + b.toNat))

/-- `SUB` and `SUBN`, minuend `a`: 1 if there is no borrow, `a >= b` (R127, R128). -/
def noBorrowFlag (a b : Byte) : Byte := flagByte (decide (b.toNat ≤ a.toNat))

/-- `SHR`: bit 0 before the shift (R129). -/
def shiftedOutLow (a : Byte) : Byte := flagByte (a.getLsbD 0)

/-- `SHL`: bit 7 before the shift (R130). -/
def shiftedOutHigh (a : Byte) : Byte := flagByte (a.getLsbD 7)

/-- The result is written to `V[x]` first and the flag to `VF` last, so with `x = F` the flag survives (R132, D7). -/
def State.setResultAndFlag (s : State) (x : Nibble) (result flag : Byte) : State := (s.setReg x result).setReg VF flag

end Sys2Proof.Machine
end

