-- ==== Sys2Proof/Machine/Operands.lean ====
section
/-! DEFINITION. The operand forms (30_encoding R63, 43 header): the key or glyph number in a register, the address
"index plus constant offset", the decimal digits of a byte, the register block `V0..Vx`, and the shape, bits and columns of
a sprite (44 R164, R165). -/

namespace Sys2Proof.Machine

/-- `V[x] & 0x0F`: the key number of `SKP` and `SKNP` and the glyph number of `SetCh` (R63). -/
def State.lowNibble (s : State) (x : Nibble) : Nibble := (s.getReg x).extractLsb' 0 4

/-- `KeyDown(k)`: the level of `key_down[k]` when the instruction executes (R180, R217). -/
def State.keyIsDown (s : State) (k : Nibble) : Bool := s.keyDown.getLsbD k.toNat

/-- The effective address of byte `i`: `I + i` as an unbounded number (R45, 43 header). -/
def State.indexed (s : State) (i : Nat) : Nat := s.index.toNat + i

/-- `zext_16((V[x] & 0x0F) * 5)`: the address of a font glyph (R142). -/
def State.glyphAddress (s : State) (x : Nibble) : Word := (s.lowNibble x).setWidth 16 * 5#16

/-- The three decimal digits of a byte, hundreds first (R143, D26). -/
def bcdDigits (v : Byte) : List Byte :=
  [BitVec.ofNat 8 (v.toNat / 100), BitVec.ofNat 8 (v.toNat / 10 % 10), BitVec.ofNat 8 (v.toNat % 10)]

/-- `V[0]` to `V[x]`, in order: what `STR Vx` stores (R144). -/
def State.regBlock (s : State) (x : Nibble) : List Byte := s.regs.toList.take (x.toNat + 1)

/-- The registers after `LDR Vx`: `V[i]` is the byte at `I + i` for `i <= x`, the others are kept (R145). -/
def State.loadedRegs (s : State) (x : Nibble) : Vector Byte 16 :=
  Vector.ofFn fun i : Fin 16 => if i.val ≤ x.toNat then s.readMem (s.indexed i.val) else s.regs[i.val]

/-- `I` after `STR Vx` and `LDR Vx`: plus `x + 1` modulo 65536 when `is_super = 1` (R144, R145). -/
def State.indexAfterBlock (s : State) (x : Nibble) : Word :=
  if s.isSuper then s.index + BitVec.ofNat 16 (x.toNat + 1) else s.index

/-- `SpriteShape(n)`: rows and bytes per row (R164). -/
def spriteShape (isSuper : Bool) (n : Nibble) : Nat × Nat :=
  if n = 0x0#4 then (if isSuper then (16, 2) else (0, 1)) else (n.toNat, 1)

/-- The sprite bit of row `r`, column `c`: most significant bit first (R163). -/
def State.spriteBit (s : State) (bpr r c : Nat) : Bool :=
  (s.readMem (s.indexed (r * bpr + c / 8))).getLsbD (7 - c % 8)

/-- The display row of sprite row `r`: vertical always wraps (R165). -/
def State.spriteRow (s : State) (vy : Byte) (r : Nat) : Nat := (vy.toNat + r) % s.height

/-- The display column of sprite column `c`: wrapped, or clipped without reducing the start column (R165). -/
def State.spriteColumn (s : State) (vx : Byte) (c : Nat) : Option Nat :=
  if s.wrapPolicy then some ((vx.toNat + c) % s.width)
  else if vx.toNat + c < s.width then some (vx.toNat + c) else none

/-- The offsets of the visible pixels under the 1 bits of the sprite, top row first, leftmost column first (R163). -/
def State.spriteOffsets (s : State) (vx vy : Byte) (shape : Nat × Nat) : List Nat :=
  (List.range shape.1).flatMap fun r =>
    (List.range (8 * shape.2)).filterMap fun c =>
      if s.spriteBit shape.2 r c then (s.spriteColumn vx c).map fun X => s.pixelOffset X (s.spriteRow vy r) else none

end Sys2Proof.Machine
end

