-- ==== Sys2Proof/Machine/Alu.lean ====
section
/-! DEFINITION. The register and arithmetic instructions (42_alu R120 to R133). Operands are read before any write (R83). -/

namespace Sys2Proof.Machine

/-- `LD Vx,imm` (R120). -/
def execLdImm (x : Nibble) (kk : Byte) (s : State) : Host.Outcome State Fault Refusal :=
  .next (s.setReg x kk).advance

/-- `ADD Vx,imm` (R121): wraps, no flag. -/
def execAddImm (x : Nibble) (kk : Byte) (s : State) : Host.Outcome State Fault Refusal :=
  .next (s.setReg x (s.getReg x + kk)).advance

/-- `LD Vx,Vy` (R122). -/
def execLdReg (x y : Nibble) (s : State) : Host.Outcome State Fault Refusal :=
  .next (s.setReg x (s.getReg y)).advance

/-- `OR Vx,Vy` (R123). -/
def execOrReg (x y : Nibble) (s : State) : Host.Outcome State Fault Refusal :=
  .next (s.setReg x (s.getReg x ||| s.getReg y)).advance

/-- `AND Vx,Vy` (R124). -/
def execAndReg (x y : Nibble) (s : State) : Host.Outcome State Fault Refusal :=
  .next (s.setReg x (s.getReg x &&& s.getReg y)).advance

/-- `XOR Vx,Vy` (R125). -/
def execXorReg (x y : Nibble) (s : State) : Host.Outcome State Fault Refusal :=
  .next (s.setReg x (s.getReg x ^^^ s.getReg y)).advance

/-- `ADD Vx,Vy` (R126): `VF` is the carry out. -/
def execAddReg (x y : Nibble) (s : State) : Host.Outcome State Fault Refusal :=
  let a := s.getReg x
  let b := s.getReg y
  .next (s.setResultAndFlag x (a + b) (carryFlag a b)).advance

/-- `SUB Vx,Vy` (R127): `VF` is no borrow of `V[x] - V[y]`. -/
def execSubReg (x y : Nibble) (s : State) : Host.Outcome State Fault Refusal :=
  let a := s.getReg x
  let b := s.getReg y
  .next (s.setResultAndFlag x (a - b) (noBorrowFlag a b)).advance

/-- `SUBN Vx,Vy` (R128): `VF` is no borrow of `V[y] - V[x]`. -/
def execSubnReg (x y : Nibble) (s : State) : Host.Outcome State Fault Refusal :=
  let a := s.getReg x
  let b := s.getReg y
  .next (s.setResultAndFlag x (b - a) (noBorrowFlag b a)).advance

/-- `SHR Vx` (R129): `y` is ignored (R68). -/
def execShr (x _y : Nibble) (s : State) : Host.Outcome State Fault Refusal :=
  let a := s.getReg x
  .next (s.setResultAndFlag x (a >>> 1) (shiftedOutLow a)).advance

/-- `SHL Vx` (R130): `y` is ignored (R68). -/
def execShl (x _y : Nibble) (s : State) : Host.Outcome State Fault Refusal :=
  let a := s.getReg x
  .next (s.setResultAndFlag x (a <<< 1) (shiftedOutHigh a)).advance

/-- `RND Vx,mask` (R131): a free byte, drawn anew at each execution, masked. -/
def execRnd (x : Nibble) (kk : Byte) (s : State) : Host.Outcome State Fault Refusal :=
  let r := Config.randomByte s.draws
  .next ({ s with draws := s.draws + 1 }.setReg x (r &&& kk)).advance

end Sys2Proof.Machine
end

