-- ==== Sys2Proof/Machine/Display.lean ====
section
/-! DEFINITION. The display instructions (44_display R160 to R168): `CLS` and the sprite-draw engine. -/

namespace Sys2Proof.Machine

/-- `CLS` (R162): every byte of the buffer becomes 0x00, and the event is raised whether or not it changed. -/
def execCls (s : State) : Host.Outcome State Fault Refusal :=
  .next { s with display := [] }.emitDisplayUpdate.advance

/-- `Pixel ^ 0xFF` at one offset (R166). -/
def togglePixel (d : Store) (o : Nat) : Store := Store.write unsetPixel d o (Display.read d o ^^^ 0xFF#8)

/-- Toggle the pixels at the offsets in order; the Boolean says whether one of them was set before it was toggled (R163, R166). -/
def toggleAll (d : Store) : List Nat → Store × Bool
  | [] => (d, false)
  | o :: rest =>
    let r := toggleAll (togglePixel d o) rest
    (r.1, (Display.read d o == 0xFF#8) || r.2)

/-- Whether the last sprite byte exists; a sprite of no bytes checks no address (R163, R164, R205). -/
def State.spriteInRange (s : State) (nbytes : Nat) : Bool :=
  if nbytes = 0 then true else addressExists (s.indexed (nbytes - 1))

/-- `DRW Vx,Vy,n` (R163): coordinates are read first, `VF` is written after the pixels, then the event is raised. -/
def execDrw (x y n : Nibble) (s : State) : Host.Outcome State Fault Refusal :=
  let shape := spriteShape s.isSuper n
  if s.spriteInRange (shape.1 * shape.2) then
    let drawn := toggleAll s.display (s.spriteOffsets (s.getReg x) (s.getReg y) shape)
    .next ({ s with display := drawn.1 }.setReg VF (flagByte drawn.2)).emitDisplayUpdate.advance
  else .next (s.raise .addressOutOfRange (encode (.drw x y n)))

end Sys2Proof.Machine
end

