-- ==== Sys2Proof/Machine/Flow.lean ====
section
/-! DEFINITION. The control transfer instructions (41_flow R100 to R108): `RET`, `JP`, `CALL`, the four register skips, `JPr`. -/

namespace Sys2Proof.Machine

/-- `RET` (R100): `StackUnderflow` on an empty stack, else pop into `pc`. -/
def execRet (s : State) : Host.Outcome State Fault Refusal :=
  match s.pop? with
  | some (a, t) => .next (t.setPc a)
  | none => .next (s.raise .stackUnderflow (encode .ret))

/-- `JP addr` (R101). -/
def execJp (nnn : Addr12) (s : State) : Host.Outcome State Fault Refusal := .next (s.setPc (nnn.setWidth 16))

/-- `CALL addr` (R102): `StackOverflow` on a full stack, else push `pc + 2` and jump. -/
def execCall (nnn : Addr12) (s : State) : Host.Outcome State Fault Refusal :=
  match s.push? (s.pc + 2) with
  | some t => .next (t.setPc (nnn.setWidth 16))
  | none => .next (s.raise .stackOverflow (encode (.call nnn)))

/-- `SE Vx,imm` (R103). -/
def execSeImm (x : Nibble) (kk : Byte) (s : State) : Host.Outcome State Fault Refusal :=
  .next (s.skip (s.getReg x == kk))

/-- `SNE Vx,imm` (R104). -/
def execSneImm (x : Nibble) (kk : Byte) (s : State) : Host.Outcome State Fault Refusal :=
  .next (s.skip (s.getReg x != kk))

/-- `SE Vx,Vy` (R105). -/
def execSeReg (x y : Nibble) (s : State) : Host.Outcome State Fault Refusal :=
  .next (s.skip (s.getReg x == s.getReg y))

/-- `SNE Vx,Vy` (R106). -/
def execSneReg (x y : Nibble) (s : State) : Host.Outcome State Fault Refusal :=
  .next (s.skip (s.getReg x != s.getReg y))

/-- `JPr V0,addr` (R107): the sum is taken modulo 4096. -/
def execJpr (nnn : Addr12) (s : State) : Host.Outcome State Fault Refusal :=
  .next (s.setPc ((nnn + (s.getReg 0x0#4).setWidth 12).setWidth 16))

end Sys2Proof.Machine
end

