-- ==== Sys2Proof/Machine/IndexMemory.lean ====
section
/-! DEFINITION. The index register and memory instructions (43_index_memory R140 to R146). The range check comes before any
effect (R146). -/

namespace Sys2Proof.Machine

/-- `SetIndex addr` (R140). -/
def execSetIndex (nnn : Addr12) (s : State) : Host.Outcome State Fault Refusal :=
  .next (s.setIndex (nnn.setWidth 16)).advance

/-- `AddIndex Vx` (R141): modulo 65536, never masked to 12 bits, no flag. -/
def execAddIndex (x : Nibble) (s : State) : Host.Outcome State Fault Refusal :=
  .next (s.setIndex (s.index + (s.getReg x).setWidth 16)).advance

/-- `SetCh Vx` (R142). -/
def execSetCh (x : Nibble) (s : State) : Host.Outcome State Fault Refusal :=
  .next (s.setIndex (s.glyphAddress x)).advance

/-- `STD Vx` (R143): three decimal digits at `I`, `I + 1`, `I + 2`; `I` is kept. -/
def execStd (x : Nibble) (s : State) : Host.Outcome State Fault Refusal :=
  if addressExists (s.indexed 2) then
    .next { s with mem := storeBytes s.mem (s.indexed 0) (bcdDigits (s.getReg x)) }.advance
  else .next (s.raise .addressOutOfRange (encode (.std x)))

/-- `STR Vx` (R144): `V0` to `Vx` to memory at `I`, then `I` as the mode says. -/
def execStr (x : Nibble) (s : State) : Host.Outcome State Fault Refusal :=
  if addressExists (s.indexed x.toNat) then
    .next ({ s with mem := storeBytes s.mem (s.indexed 0) (s.regBlock x) }.setIndex (s.indexAfterBlock x)).advance
  else .next (s.raise .addressOutOfRange (encode (.str x)))

/-- `LDR Vx` (R145): `V0` to `Vx` from memory at `I`, then `I` as the mode says. -/
def execLdr (x : Nibble) (s : State) : Host.Outcome State Fault Refusal :=
  if addressExists (s.indexed x.toNat) then
    .next ({ s with regs := s.loadedRegs x }.setIndex (s.indexAfterBlock x)).advance
  else .next (s.raise .addressOutOfRange (encode (.ldr x)))

end Sys2Proof.Machine
end

