-- ==== Sys2Proof/Machine/KeysTimers.lean ====
section
/-! DEFINITION. The key and timer instructions (45_keys_timers R180 to R185). -/

namespace Sys2Proof.Machine

/-- `SKP Vx` (R180). -/
def execSkp (x : Nibble) (s : State) : Host.Outcome State Fault Refusal :=
  .next (s.skip (s.keyIsDown (s.lowNibble x)))

/-- `SKNP Vx` (R181). -/
def execSknp (x : Nibble) (s : State) : Host.Outcome State Fault Refusal :=
  .next (s.skip (!s.keyIsDown (s.lowNibble x)))

/-- `GetK Vx`, the step that executes the instruction (R182): the core suspends and `pc` stays. The wake-up step is
`wakeUp` in Cycle.lean (R85). -/
def execGetK (x : Nibble) (s : State) : Host.Outcome State Fault Refusal :=
  .next { s with keyDest := x, runState := .awaitingKey }

/-- `GetD Vx` (R183): `AtomicPairRead` of the pair, `delay` to `V[x]`. -/
def execGetD (x : Nibble) (s : State) : Host.Outcome State Fault Refusal :=
  .next (s.setReg x s.delay).advance

/-- `SetD Vx` (R184): `delay` replaced, `sound` kept, one transaction. -/
def execSetD (x : Nibble) (s : State) : Host.Outcome State Fault Refusal :=
  .next (s.atomicPairUpdate fun _ snd => (s.getReg x, snd)).advance

/-- `SetS Vx` (R185): `sound` replaced, `delay` kept, one transaction; no beep. -/
def execSetS (x : Nibble) (s : State) : Host.Outcome State Fault Refusal :=
  .next (s.atomicPairUpdate fun dly _ => (dly, s.getReg x)).advance

end Sys2Proof.Machine
end

