-- ==== Sys2Proof/Machine/Cycle.lean ====
section
/-! DEFINITION. The steps of the three agents (40_execution_cycle, 60_exceptions section 3, 70_reset section 1): fetch,
decode, dispatch and the run states of the core, the tick of the Timer Service, the key wait's wake-up, and the host's reset. -/

namespace Sys2Proof.Machine

/-- The fetch fault (R81, R204): no byte is read, and `fault_opcode` is a free value. -/
def State.raiseGuard (s : State) : State :=
  { s with draws := s.draws + 1 }.raise .instructionFlowGuard (Config.guardOpcode s.draws)

/-- The illegal-instruction handler (R87): the fetched word is latched. -/
def State.illegal (s : State) (op : Word) : State := s.raise .illegalOpcode op

/-- A core step in `Running` (R80): the guard test, the fetch, the dispatch, the handler. -/
def runInstruction (s : State) : Host.Outcome State Fault Refusal :=
  if Config.topFetch < s.pc.toNat then .next s.raiseGuard
  else
    match decode (s.fetch16 s.pc.toNat) with
    | .ok i => exec i s
    | .error _ => .next (s.illegal (s.fetch16 s.pc.toNat))

/-- A move of the core (R80, R85, R86). While the core waits and no key event is presented it holds, with nothing changed
(log entry 7); a halted core has no step (log entry 8). -/
def coreStep (s : State) : Host.Outcome State Fault Refusal :=
  match s.runState with
  | .running => runInstruction s
  | .awaitingKey => .next s
  | .halted => .fault .coreHalted

/-- A timer field one tick later: "decrement, stop at zero" (R212). -/
def countDown (v : Byte) : Byte := if v = 0x00#8 then 0x00#8 else v - 1

/-- A tick of the Timer Service, in every run state (R212, R213, R216). -/
def State.tick (s : State) : State :=
  let t := s.atomicPairUpdate fun dly snd => (countDown dly, countDown snd)
  if s.sound = 0x01#8 then t.emitBeep else t

/-- The wake-up step of the key wait (R85). -/
def State.wakeUp (s : State) (id : Nibble) : State :=
  { s.setReg s.keyDest (id.setWidth 8) with runState := .running }.advance

/-- The host presents a key event: it wakes a waiting core; otherwise it is ignored and not queued (R85, R217, K15). -/
def State.presentKey (s : State) (id : Nibble) : State :=
  match s.runState with
  | .awaitingKey => s.wakeUp id
  | .running => s
  | .halted => s

/-- `Reset(image, straps)` with an image that fits (R240). The inputs, the moves still to come and the count of draws are
not the machine's state and stay (log entry 11). -/
def State.hostReset (s : State) (image : List Byte) (straps : Straps) : State where
  mem := storeBytes [] Config.loadBase image
  regs := Vector.replicate 16 0x00#8
  stack := Vector.replicate 16 0x0000#16
  sp := 0
  pc := 0x0200#16
  index := 0x0000#16
  timers := 0x0000#16
  display := []
  isExtended := straps.isExtended
  isSuper := straps.isSuper
  wrapPolicy := straps.wrapPolicy
  runState := .running
  keyDest := 0x0#4
  errorKind := .none
  faultPc := 0x0000#16
  faultOpcode := 0x0000#16
  events := []
  keyDown := s.keyDown
  schedule := s.schedule
  draws := s.draws

/-- The host asserts reset; an oversize image is refused before execution begins (R242). -/
def resetStep (image : List Byte) (straps : Straps) (s : State) : Host.Outcome State Fault Refusal :=
  if imageFits image then .next (s.hostReset image straps) else .refused .imageTooLarge

/-- One move of one agent (R8, R215). -/
def moveStep (s : State) : Move → Host.Outcome State Fault Refusal
  | .core => coreStep s
  | .tick => .next s.tick
  | .keyLevels down => .next { s with keyDown := down }
  | .keyEvent id => .next (s.presentKey id)
  | .reset image straps => resetStep image straps s

/-- One step of the machine: the next agent of the schedule moves. Where the schedule ends the Timer Service ticks and the moves
up to its next such tick are drawn, so it ticks again and again while any finite number of moves of any agent may come between:
"weak fairness of the Timer Service" and no more (R215, D18; log entries 3 and 4). -/
def cycle (s : State) : Host.Outcome State Fault Refusal :=
  match s.schedule with
  | [] => .next s.drawMoves.tick
  | m :: rest => moveStep { s with schedule := rest } m

/-- Where the next instruction is fetched from: `pc`, or the load base when nothing can be fetched at `pc` (R46). -/
def State.fetchSpot (s : State) : Word := if s.pc.toNat ≤ Config.topFetch then s.pc else BitVec.ofNat 16 Config.loadBase

/-- The machine with the word `op` where its next instruction is fetched, the core running and moving next (log entry 13). -/
def State.withNextWord (s : State) (op : Word) : State :=
  { s with
    mem := storeBytes s.mem s.fetchSpot.toNat [highByte op, lowByte op]
    pc := s.fetchSpot
    runState := .running
    schedule := .core :: s.schedule }

end Sys2Proof.Machine
end

