-- ==== Sys2Proof/Machine/Step.lean ====
section
/-! DEFINITION. The step function of the machine, and the state in which a given instruction is the next to run. -/

namespace Sys2Proof.Machine

/-- One atomic step (R80, R215). -/
def step : State → Host.Outcome State Fault Refusal := cycle

/-- The state with the instruction whose bits are `w`, numbered as the opcode table numbers them, stored where `step` fetches
its next instruction. -/
def State.withFetchWord (s : State) (nbits w : Nat) : State := s.withNextWord (BitVec.ofNat 16 (w % 2 ^ nbits))

end Sys2Proof.Machine
end

