-- ==== Sys2Proof/Safety.lean ====
section
/-! DEFINITION. The terms the claims are stated in: what it means that a part of the state is unchanged, which display pixels
a sprite covers, and the invariant of the machine (10_state R25). -/

namespace Sys2Proof.Machine

/-- Every byte of memory reads as before. -/
def SameMemory (s t : State) : Prop := ∀ a : Nat, t.readMem a = s.readMem a

/-- Every register outside the list holds what it held before. -/
def SameRegsExcept (written : List Nibble) (s t : State) : Prop := ∀ z, z ∉ written → t.getReg z = s.getReg z

/-- Only `pc` may differ: every register, every byte of memory and every other field is as before. -/
def OnlyPc (s t : State) : Prop := SameMemory s t ∧ SameRegsExcept [] s t ∧ t = { s with pc := t.pc }

/-- Only the listed registers and `pc` may differ. -/
def OnlyRegsAndPc (written : List Nibble) (s t : State) : Prop :=
  SameMemory s t ∧ SameRegsExcept written s t ∧ t = { s with regs := t.regs, pc := t.pc }

/-- Only `I` and `pc` may differ. -/
def OnlyIndexAndPc (s t : State) : Prop :=
  SameMemory s t ∧ SameRegsExcept [] s t ∧ t = { s with index := t.index, pc := t.pc }

/-- Only the timer pair and `pc` may differ. -/
def OnlyTimersAndPc (s t : State) : Prop :=
  SameMemory s t ∧ SameRegsExcept [] s t ∧ t = { s with timers := t.timers, pc := t.pc }

/-- `t` is `s` after `raise kind(fault_opcode = w, fault_pc = pc)`: the error latch and `run_state`, nothing else (R206). -/
def TakesFault (kind : ErrorKind) (w : Word) (s t : State) : Prop :=
  SameMemory s t ∧ SameRegsExcept [] s t ∧
    t = { s with errorKind := kind, faultPc := s.pc, faultOpcode := w, runState := .halted }

/-- The core moves next, and `u` is `s` with that move taken from the schedule. -/
def CoreMoves (s u : State) : Prop := ∃ rest, s.schedule = .core :: rest ∧ u = { s with schedule := rest }

/-- The Timer Service moves next, and `u` is `s` just before the tick: its tick taken from the schedule, or, where the schedule
has ended, the next moves drawn (R215). -/
def TimerMoves (s u : State) : Prop :=
  (s.schedule = [] ∧ u = s.drawMoves) ∨ ∃ rest, s.schedule = .tick :: rest ∧ u = { s with schedule := rest }

/-- `t` is reached from `s` in `n` steps, each of which answers a next state. -/
def StepsTo : Nat → State → State → Prop
  | 0, s, t => t = s
  | n + 1, s, t => ∃ u, step s = .next u ∧ StepsTo n u t

/-- A core that goes on from `t` and moves next cannot fetch: it takes `InstructionFlowGuard` at `t`'s `pc`, with some
`fault_opcode`, and nothing else changes but the model's count of draws (R46, R204). -/
def NextFetchFaults (t : State) : Prop :=
  t.runState = .running → ∀ rest, ∃ v w, step { t with schedule := .core :: rest } = .next v ∧
    TakesFault .instructionFlowGuard w { t with schedule := rest, draws := v.draws } v

/-- `t` differs from `s` at most in the timer pair, the events, the key levels, the moves still to come and the model's count of
draws: nothing the core owns has changed. -/
def SameCore (s t : State) : Prop :=
  SameMemory s t ∧ SameRegsExcept [] s t ∧
    t = { s with timers := t.timers, events := t.events, keyDown := t.keyDown, schedule := t.schedule, draws := t.draws }

/-- The rows of the sprite of `DRW` with row count `n` (R164). -/
def spriteRows (s : State) (n : Nibble) : Nat := if n = 0x0#4 then (if s.isSuper then 16 else 0) else n.toNat

/-- The bytes of one row of the sprite of `DRW` with row count `n` (R164). -/
def spriteRowBytes (s : State) (n : Nibble) : Nat := if n = 0x0#4 ∧ s.isSuper = true then 2 else 1

/-- Every byte of the sprite exists, or it has none (R163, R205). -/
def SpriteFits (s : State) (n : Nibble) : Prop :=
  spriteRows s n * spriteRowBytes s n = 0 ∨ s.index.toNat + spriteRows s n * spriteRowBytes s n - 1 ≤ 0xFFF

/-- The sprite with `rows` rows of `bpr` bytes at `I`, drawn at `(vx, vy)`, has a visible 1 bit on pixel `(X, Y)`: bit
`7 - c mod 8` of the byte at `I + r*bpr + c div 8` is 1 for a row `r` that lands on `Y` and a column `c` that lands on `X`
(R163, R165). -/
def SpriteCovers (s : State) (vx vy : Byte) (rows bpr X Y : Nat) : Prop :=
  ∃ r c, r < rows ∧ c < 8 * bpr ∧ (s.readMem (s.index.toNat + (r * bpr + c / 8))).getLsbD (7 - c % 8) = true ∧
    Y = (vy.toNat + r) % s.height ∧
    X = (if s.wrapPolicy then (vx.toNat + c) % s.width else vx.toNat + c)

/-- The invariant: memory and display are in canonical form with display bytes 0x00 or 0xFF (R25 (c)), a fault is latched
exactly when the core is halted (R25 (d)), `pc` and the live stack entries keep their bounds (R25 (f)), and while the core
waits `pc` stands on the `GetK` that names `key_dest` (R22, R85). R25 (a) and (b) hold by the types. -/
structure State.Inv (s : State) : Prop where
  memory : Memory.wf s.mem
  display : Display.wf (s.width * s.height) s.display
  latch : s.errorKind ≠ .none ↔ s.runState = .halted
  pcBound : s.pc.toNat ≤ 0x1002
  stackBound : ∀ i : Fin 16, i.val < s.sp.val → (s.stack[i.val]).toNat ≤ 0x1000
  waiting : s.runState = .awaitingKey →
    s.pc.toNat ≤ Config.topFetch ∧ decode (s.fetch16 s.pc.toNat) = .ok (.getK s.keyDest)

end Sys2Proof.Machine
end

