-- ==== Sys2Proof/Certificates/Slice0/Obligations.lean ====
section
/-! DEFINITION. The statements for the provers, each from numbered rules of spec/. Every statement holds for all states unless
it names a condition; the conditions are met by the witnesses of Tests/Slice0.lean. -/

open Sys2Proof Sys2Proof.Machine

/-! ### Encoding -/

/-- Words written out from the pattern column of R65, one or more per family, decode to the instruction they stand for. -/
def Obligations.WrittenOutWordsDecode : Prop :=
  decode 0x00E0#16 = .ok .cls ∧ decode 0x00EE#16 = .ok .ret ∧ decode 0x1ABC#16 = .ok (.jp 0xABC#12) ∧
  decode 0x5120#16 = .ok (.seReg 0x1#4 0x2#4) ∧ decode 0x7A01#16 = .ok (.addImm 0xA#4 0x01#8) ∧
  decode 0x8F1E#16 = .ok (.shl 0xF#4 0x1#4) ∧ decode 0xA203#16 = .ok (.setIndex 0x203#12) ∧
  decode 0xD125#16 = .ok (.drw 0x1#4 0x2#4 0x5#4) ∧ decode 0xE3A1#16 = .ok (.sknp 0x3#4) ∧
  decode 0xF40A#16 = .ok (.getK 0x4#4) ∧ decode 0xF155#16 = .ok (.str 0x1#4) ∧ decode 0x00FD#16 = .error .class0

/-- Decoding the word, or the two bytes in memory order, of any instruction gives that instruction back, for every value of
every operand (R42, R61, R62, R65). -/
def Obligations.DecodeInvertsEncode : Prop :=
  ∀ i : Instr, i.wellFormed = true →
    decode (encode i) = .ok i ∧ ∀ rest, decodeBytes (encodeBytes i ++ rest) = some (.ok i, rest)

/-- A word that decodes is the word of the instruction it decodes to: no legal word has a dropped bit (R65, R68). -/
def Obligations.EncodeInvertsDecode : Prop := ∀ (op : Word) (i : Instr), decode op = .ok i → encode i = op

/-- The decoder is the Dispatcher's function of the pattern list: a decoded word matches its instruction's row and no other
row, and a rejected word matches no row (R64, R65, R66). -/
def Obligations.DecoderFollowsThePatternList : Prop :=
  ∀ op : Word,
    (∀ i, decode op = .ok i →
      i.row ∈ opcodeRows ∧ op &&& i.row.mask = i.row.pattern ∧
      ∀ r ∈ opcodeRows, op &&& r.mask = r.pattern → r = i.row) ∧
    (∀ e, decode op = .error e → ∀ r ∈ opcodeRows, op &&& r.mask ≠ r.pattern)

/-- The rejected words are the ones R66 lists, class by class. -/
def Obligations.IllegalWordsAreTheListedOnes : Prop :=
  ∀ op : Word,
    (decode op = .error .class0 ↔ fieldC op = 0x0#4 ∧ op ≠ 0x00E0#16 ∧ op ≠ 0x00EE#16) ∧
    (decode op = .error .class5 ↔ fieldC op = 0x5#4 ∧ fieldN op ≠ 0x0#4) ∧
    (decode op = .error .class8 ↔ fieldC op = 0x8#4 ∧
      fieldN op ∈ [0x8#4, 0x9#4, 0xA#4, 0xB#4, 0xC#4, 0xD#4, 0xF#4]) ∧
    (decode op = .error .class9 ↔ fieldC op = 0x9#4 ∧ fieldN op ≠ 0x0#4) ∧
    (decode op = .error .classE ↔ fieldC op = 0xE#4 ∧ fieldKK op ∉ [0x9E#8, 0xA1#8]) ∧
    (decode op = .error .classF ↔ fieldC op = 0xF#4 ∧
      fieldKK op ∉ [0x07#8, 0x0A#8, 0x15#8, 0x18#8, 0x1E#8, 0x29#8, 0x33#8, 0x55#8, 0x65#8])

/-! ### The step -/

/-- When the core moves next, runs, and the two bytes at `pc`, high byte first, decode to `i`, the step is `exec i` on the
state with the move taken (R80, R81, R82, R42). -/
def Obligations.StepRunsTheDecodedInstruction : Prop :=
  ∀ (s u : State) (i : Instr), CoreMoves s u → s.runState = .running → s.pc.toNat ≤ 0xFFE →
    decode (s.readMem s.pc.toNat ++ s.readMem (s.pc.toNat + 1)) = .ok i → step s = exec i u

/-- A fetched word that matches no row: `IllegalOpcode` with that word and `pc` latched, nothing else changed (R87, R203, R206). -/
def Obligations.UnmatchedWordTakesIllegalOpcode : Prop :=
  ∀ (s u : State) (e : Illegal), CoreMoves s u → s.runState = .running → s.pc.toNat ≤ 0xFFE →
    decode (s.readMem s.pc.toNat ++ s.readMem (s.pc.toNat + 1)) = .error e →
    ∃ t, step s = .next t ∧ TakesFault .illegalOpcode (s.readMem s.pc.toNat ++ s.readMem (s.pc.toNat + 1)) u t

/-- A fetch with `pc > 0xFFE`: `InstructionFlowGuard`, `fault_pc = pc`, some `fault_opcode`, nothing else changed but the
model's count of draws (R46, R81, R204; log entry 10). -/
def Obligations.FetchAboveTheTopTakesFlowGuard : Prop :=
  ∀ s u : State, CoreMoves s u → s.runState = .running → 0xFFE < s.pc.toNat →
    ∃ t w, step s = .next t ∧ TakesFault .instructionFlowGuard w { u with draws := t.draws } t

/-- A halted core has no step; a key event is not consumed; no move but a reset leaves `Halted`; and only the core's move stops
the machine, so ticks go on (R86, R209, R216). -/
def Obligations.HaltedCoreHasNoStep : Prop :=
  ∀ s : State, s.runState = .halted →
    (∀ u, CoreMoves s u → step s = .fault .coreHalted) ∧
    (∀ id rest, s.schedule = .keyEvent id :: rest → step s = .next { s with schedule := rest }) ∧
    (∀ u, TimerMoves s u → ∃ t, step s = .next t) ∧
    (∀ t, step s = .next t → t.runState = .halted ∨ ∃ image straps rest, s.schedule = .reset image straps :: rest)

/-- The wake-up step: a key event presented to a waiting core goes to `V[key_dest]`, `pc` advances by 2, the core runs (R85). -/
def Obligations.KeyEventWakesTheWaitingCore : Prop :=
  ∀ (s : State) (id : Nibble) (rest : List Move), s.runState = .awaitingKey → s.schedule = .keyEvent id :: rest →
    ∃ t, step s = .next t ∧ (t.getReg s.keyDest).toNat = id.toNat ∧ t.pc = s.pc + 2 ∧ t.runState = .running ∧
      OnlyRegsAndPc [s.keyDest] { s with runState := .running, schedule := rest } t

/-- Without a key event the waiting core stays as it is. That its move is a step that changes nothing, and no stop, is the
model's choice (log entry 7). -/
def Obligations.WaitingCoreHoldsWithoutAKey : Prop :=
  ∀ s u : State, s.runState = .awaitingKey → CoreMoves s u → step s = .next u

/-- Until a reset nothing the core owns changes in a halted machine: the latch, `pc`, the registers, memory, the stack and the
display keep their values whatever moves come (R86, R209, R216). -/
def Obligations.HaltedStateIsFrozenUntilReset : Prop :=
  ∀ s t : State, s.runState = .halted → step s = .next t →
    SameCore s t ∨ ∃ image straps rest, s.schedule = .reset image straps :: rest

/-- While the core waits, only a key event or a reset changes what the core owns: "all state survives it" (R85, R216, R223).
That the core's own move without a key event is a step that changes nothing is the model's choice (log entry 7). -/
def Obligations.WaitingStateIsHeldUntilAKey : Prop :=
  ∀ s t : State, s.runState = .awaitingKey → step s = .next t →
    SameCore s t ∨ (∃ id rest, s.schedule = .keyEvent id :: rest) ∨ ∃ image straps rest, s.schedule = .reset image straps :: rest

/-- A key event presented while the core runs is ignored and not queued (R217). -/
def Obligations.KeyEventWhileRunningIsIgnored : Prop :=
  ∀ (s : State) (id : Nibble) (rest : List Move), s.runState = .running → s.schedule = .keyEvent id :: rest →
    step s = .next { s with schedule := rest }

/-- A tick, in every run state: both timers count down and stop at zero in one transaction, `Beep` is raised exactly when
`sound` was 1, nothing else changes (R212, R213, R216). -/
def Obligations.TickCountsBothTimersDown : Prop :=
  ∀ s u : State, TimerMoves s u →
    ∃ t, step s = .next t ∧
      t.delay = (if 0 < s.delay.toNat then s.delay - 1 else 0) ∧
      t.sound = (if 0 < s.sound.toNat then s.sound - 1 else 0) ∧
      t.events = (if s.sound = 1 then s.events ++ [.beep] else s.events) ∧
      SameMemory s t ∧ SameRegsExcept [] s t ∧ t = { u with timers := t.timers, events := t.events }

/-- A beep comes from the tick that takes `sound` from 1 to 0 and from nothing else: no other step of any agent raises one, and
a reset leaves no event (R213). -/
def Obligations.BeepsComeOnlyFromTheTick : Prop :=
  ∀ s t : State, step s = .next t →
    (∀ u, TimerMoves s u → s.sound = 0x01#8 → t.events = s.events ++ [.beep] ∧ t.sound = 0x00#8) ∧
    ((∀ u, TimerMoves s u → s.sound ≠ 0x01#8) →
      t.events.count .beep = s.events.count .beep ∨
      ∃ image straps rest, s.schedule = .reset image straps :: rest ∧ t.events = [])

/-- A `SetD` never undoes a decrement of `sound` and a `SetS` never one of `delay`: in both orders with a tick, the half the
instruction does not write and the beeps raised by the tick come out the same where R214 says so. -/
def Obligations.TimerTransactionsNeverTear : Prop :=
  ∀ (s a : State) (x : Nibble), exec (.setD x) s = .next a →
    (∃ b, exec (.setD x) s.tick = .next b ∧ b.delay = s.getReg x ∧ b.sound = a.tick.sound ∧ b.events = a.tick.events ∧
      a.tick.delay.toNat = (s.getReg x).toNat - 1) ∧
    (∀ c, exec (.setS x) s = .next c → ∃ d, exec (.setS x) s.tick = .next d ∧ d.sound = s.getReg x ∧
      d.delay = c.tick.delay ∧ c.tick.sound.toNat = (s.getReg x).toNat - 1)

/-- A host reset leaves every piece of state at the value R240 gives, with the image and the straps taken in; an image above
3584 bytes is refused and nothing runs (R240, R242, R55). -/
def Obligations.HostResetLeavesTheResetValues : Prop :=
  ∀ (s : State) (image : List Byte) (straps : Straps) (rest : List Move), s.schedule = .reset image straps :: rest →
    (image.length ≤ 3584 → ∃ t, step s = .next t ∧
      (∀ a, a < 80 → t.readMem a = font.getD a 0) ∧
      (∀ a, (h : 0x200 ≤ a ∧ a < 0x200 + image.length) → t.readMem a = image[a - 0x200]'(by omega)) ∧
      (∀ a, 80 ≤ a → a < 0x200 ∨ 0x200 + image.length ≤ a → t.readMem a = 0) ∧
      (∀ z, t.getReg z = 0) ∧ t.index = 0 ∧ t.pc = 0x0200 ∧ t.sp = 0 ∧ (∀ i : Fin 16, t.stack[i.val] = 0) ∧
      t.delay = 0 ∧ t.sound = 0 ∧
      t.isSuper = straps.isSuper ∧ t.isExtended = straps.isExtended ∧ t.wrapPolicy = straps.wrapPolicy ∧
      t.width = (if straps.isExtended then 128 else 64) ∧ t.height = (if straps.isExtended then 64 else 32) ∧
      (∀ X Y, X < t.width → Y < t.height → t.pixel X Y = 0) ∧
      t.runState = .running ∧ t.keyDest = 0 ∧ t.errorKind = .none ∧ t.faultPc = 0 ∧ t.faultOpcode = 0 ∧ t.events = []) ∧
    (3584 < image.length → step s = .refused .imageTooLarge)

/-- The state right after reset: the values the spec gives (R27, with the strap defaults of R5). The fields `wrapPolicy`,
`keyDown`, `schedule` and `draws` hold the model's own values and are not named here (log entries 3, 5, 11, 12). -/
def Obligations.ResetStateHoldsTheSpecsValues : Prop :=
  (∀ z, State.reset.getReg z = 0) ∧ State.reset.pc = 0x0200 ∧ State.reset.index = 0 ∧ State.reset.sp = 0 ∧
  (∀ i : Fin 16, State.reset.stack[i.val] = 0) ∧ State.reset.delay = 0 ∧ State.reset.sound = 0 ∧
  (∀ a, 80 ≤ a → State.reset.readMem a = 0) ∧ (∀ X Y, State.reset.pixel X Y = 0) ∧
  State.reset.isSuper = true ∧ State.reset.isExtended = false ∧ State.reset.runState = .running ∧
  State.reset.keyDest = 0 ∧ State.reset.errorKind = .none ∧ State.reset.faultPc = 0 ∧ State.reset.faultOpcode = 0 ∧
  State.reset.events = []

/-- The fontset after reset, glyph by glyph (R54). -/
def Obligations.FontsetAtReset : Prop :=
  (List.range 80).map State.reset.readMem =
    ([0xF0, 0x90, 0x90, 0x90, 0xF0] : List Byte) ++ [0x20, 0x60, 0x20, 0x20, 0x70] ++ [0xF0, 0x10, 0xF0, 0x80, 0xF0] ++
    [0xF0, 0x10, 0xF0, 0x10, 0xF0] ++ [0x90, 0x90, 0xF0, 0x10, 0x10] ++ [0xF0, 0x80, 0xF0, 0x10, 0xF0] ++
    [0xF0, 0x80, 0xF0, 0x90, 0xF0] ++ [0xF0, 0x10, 0x20, 0x40, 0x40] ++ [0xF0, 0x90, 0xF0, 0x90, 0xF0] ++
    [0xF0, 0x90, 0xF0, 0x10, 0xF0] ++ [0xF0, 0x90, 0xF0, 0x90, 0x90] ++ [0xE0, 0x90, 0xE0, 0x90, 0xE0] ++
    [0xF0, 0x80, 0x80, 0x80, 0xF0] ++ [0xE0, 0x90, 0x90, 0x90, 0xE0] ++ [0xF0, 0x80, 0xF0, 0x80, 0xF0] ++
    [0xF0, 0x80, 0xF0, 0x80, 0x80]

/-! ### Invariants and whole-machine rules -/

/-- The invariant holds right after reset. -/
def Obligations.InvHoldsAtReset : Prop := State.reset.Inv

/-- Every step of every agent keeps the invariant (R25 (c), (d), (f), R22). -/
def Obligations.EveryStepKeepsInv : Prop := ∀ s t : State, s.Inv → step s = .next t → t.Inv

/-- The straps change in no step but a host reset, which sets them to its own (R19, R25 (e)). -/
def Obligations.OnlyResetWritesTheStraps : Prop :=
  ∀ s t : State, step s = .next t →
    (t.isSuper = s.isSuper ∧ t.isExtended = s.isExtended ∧ t.wrapPolicy = s.wrapPolicy) ∨
    ∃ image straps rest, s.schedule = .reset image straps :: rest ∧
      t.isSuper = straps.isSuper ∧ t.isExtended = straps.isExtended ∧ t.wrapPolicy = straps.wrapPolicy

/-- Every instruction has a next state in every state: it completes, suspends, or takes its fault (R83, R207). -/
def Obligations.EveryInstructionAnswersANextState : Prop := ∀ (i : Instr) (s : State), ∃ t, exec i s = .next t

/-- Faults are precise, and each kind comes from the instructions and conditions R200 names: if an instruction executed by a
running core halts it, nothing but the latch and `run_state` has changed. -/
def Obligations.InstructionFaultsArePrecise : Prop :=
  ∀ (i : Instr) (s t : State), s.runState = .running → exec i s = .next t → t.runState = .halted →
    TakesFault t.errorKind (encode i) s t ∧
    ((t.errorKind = .stackOverflow ∧ (∃ nnn, i = .call nnn) ∧ s.sp.val = 16) ∨
     (t.errorKind = .stackUnderflow ∧ i = .ret ∧ s.sp.val = 0) ∨
     (t.errorKind = .addressOutOfRange ∧
       ((∃ x, i = .std x ∧ 0xFFF < s.index.toNat + 2) ∨ (∃ x, i = .str x ∧ 0xFFF < s.index.toNat + x.toNat) ∨
        (∃ x, i = .ldr x ∧ 0xFFF < s.index.toNat + x.toNat) ∨ (∃ x y n, i = .drw x y n ∧ ¬SpriteFits s n))))

/-- Which instructions write which storage (R10, R14, R15, R18, R48): memory only `STD` and `STR`, the stack only `CALL` and
`RET`, the display only `CLS` and `DRW`, the timer pair only `SetD` and `SetS`, `I` only the five of R14, the straps and the
key levels none. -/
def Obligations.OnlyItsWritersChangeAStorage : Prop :=
  ∀ (i : Instr) (s t : State), exec i s = .next t →
    (SameMemory s t ∨ (∃ x, i = .std x) ∨ ∃ x, i = .str x) ∧
    ((t.sp = s.sp ∧ t.stack = s.stack) ∨ i = .ret ∨ ∃ nnn, i = .call nnn) ∧
    (t.display = s.display ∨ i = .cls ∨ ∃ x y n, i = .drw x y n) ∧
    (t.timers = s.timers ∨ (∃ x, i = .setD x) ∨ ∃ x, i = .setS x) ∧
    (t.index = s.index ∨ (∃ nnn, i = .setIndex nnn) ∨ (∃ x, i = .addIndex x) ∨ (∃ x, i = .setCh x) ∨
      (s.isSuper = true ∧ ((∃ x, i = .str x) ∨ ∃ x, i = .ldr x))) ∧
    t.isSuper = s.isSuper ∧ t.isExtended = s.isExtended ∧ t.wrapPolicy = s.wrapPolicy ∧ t.keyDown = s.keyDown

/-- Only `CLS` and `DRW` raise an event, one `DisplayUpdate` with the finished buffer and the geometry; no instruction raises a
`Beep` (R23, R167, R213). -/
def Obligations.OnlyDrawingRaisesAnEvent : Prop :=
  ∀ (i : Instr) (s t : State), exec i s = .next t →
    t.events = s.events ∨
    ((i = .cls ∨ ∃ x y n, i = .drw x y n) ∧
      t.events = s.events ++ [.displayUpdate t.display (if s.isExtended then 128 else 64) (if s.isExtended then 64 else 32)])

/-- `VF` is written only by the six flag-defining instructions of R12, which leave 0 or 1 in it when they complete, or by an
instruction that names it as its register, `LDR VF` included (R12, R25 (g)). -/
def Obligations.OnlyFlagInstructionsWriteVFImplicitly : Prop :=
  ∀ (i : Instr) (s t : State), exec i s = .next t →
    (t.getReg VF = s.getReg VF) ∨
    ((t.getReg VF = 0 ∨ t.getReg VF = 1) ∧
      ((∃ x y, i = .addReg x y ∨ i = .subReg x y ∨ i = .subnReg x y ∨ i = .shr x y ∨ i = .shl x y) ∨
        ∃ x y n, i = .drw x y n)) ∨
    (∃ kk, i = .ldImm VF kk ∨ i = .addImm VF kk ∨ i = .rnd VF kk) ∨
    (∃ y, i = .ldReg VF y ∨ i = .orReg VF y ∨ i = .andReg VF y ∨ i = .xorReg VF y) ∨
    i = .getD VF ∨ i = .ldr VF

/-! ### Control flow -/

/-- `RET` (R100): the popped entry goes to `pc` as it was pushed and stays in the stack; a `pc` that cannot be fetched from
faults at the next fetch; on an empty stack it takes `StackUnderflow`. -/
def Obligations.RetPopsTheStackIntoPc : Prop :=
  decode 0x00EE#16 = .ok .ret ∧
  ∀ s : State,
    (∀ i : Fin 16, s.sp.val = i.val + 1 → ∃ t, exec .ret s = .next t ∧ t.sp.val = i.val ∧ t.pc = s.stack[i.val] ∧
      (0xFFE < t.pc.toNat → NextFetchFaults t) ∧
      SameMemory s t ∧ SameRegsExcept [] s t ∧ t = { s with sp := t.sp, pc := t.pc }) ∧
    (s.sp.val = 0 → ∃ t, exec .ret s = .next t ∧ TakesFault .stackUnderflow 0x00EE#16 s t)

/-- `JP addr` (R101): any 12-bit value, odd ones and those below 0x200 included; after `JP 0xFFF` the next fetch
faults. -/
def Obligations.JpSetsPc : Prop :=
  ∀ (nnn : Addr12) (s : State), decode (formatAddr 0x1#4 nnn) = .ok (.jp nnn) ∧
    ∃ t, exec (.jp nnn) s = .next t ∧ t.pc.toNat = nnn.toNat ∧ (nnn.toNat = 0xFFF → NextFetchFaults t) ∧ OnlyPc s t

/-- `CALL addr` (R102): pushes `pc + 2` and jumps; with 16 entries it takes `StackOverflow`. -/
def Obligations.CallPushesAndJumps : Prop :=
  ∀ (nnn : Addr12) (s : State), decode (formatAddr 0x2#4 nnn) = .ok (.call nnn) ∧
    (∀ i : Fin 16, s.sp.val = i.val → ∃ t, exec (.call nnn) s = .next t ∧ t.sp.val = i.val + 1 ∧
      t.stack[i.val] = s.pc + 2 ∧ (∀ j : Fin 16, j ≠ i → t.stack[j.val] = s.stack[j.val]) ∧ t.pc.toNat = nnn.toNat ∧
      SameMemory s t ∧ SameRegsExcept [] s t ∧ t = { s with stack := t.stack, sp := t.sp, pc := t.pc }) ∧
    (s.sp.val = 16 → ∃ t, exec (.call nnn) s = .next t ∧ TakesFault .stackOverflow (formatAddr 0x2#4 nnn) s t)

/-- A `CALL` that succeeds, followed by `RET` in any state with the stack and `sp` the call left, returns to the instruction
after the `CALL` with `sp` as before and every entry below it as before (R15, R100, R102). -/
def Obligations.RetReturnsAfterTheCall : Prop :=
  ∀ (nnn : Addr12) (s t u : State), s.sp.val < 16 → exec (.call nnn) s = .next t → u.sp = t.sp → u.stack = t.stack →
    ∃ v, exec .ret u = .next v ∧ v.pc = s.pc + 2 ∧ v.sp = s.sp ∧
      ∀ i : Fin 16, i.val < s.sp.val → v.stack[i.val] = s.stack[i.val]

/-- `SE Vx,imm` and `SNE Vx,imm` (R103, R104). -/
def Obligations.SkipsOnAnImmediate : Prop :=
  ∀ (x : Nibble) (kk : Byte) (s : State),
    decode (formatXI 0x3#4 x kk) = .ok (.seImm x kk) ∧ decode (formatXI 0x4#4 x kk) = .ok (.sneImm x kk) ∧
    (∃ t, exec (.seImm x kk) s = .next t ∧ t.pc = s.pc + (if s.getReg x = kk then 4 else 2) ∧ OnlyPc s t) ∧
    (∃ t, exec (.sneImm x kk) s = .next t ∧ t.pc = s.pc + (if s.getReg x ≠ kk then 4 else 2) ∧ OnlyPc s t)

/-- `SE Vx,Vy` and `SNE Vx,Vy` (R105, R106): `n` must be 0 in the word. -/
def Obligations.SkipsOnARegister : Prop :=
  ∀ (x y : Nibble) (s : State),
    decode (formatXY 0x5#4 x y 0x0#4) = .ok (.seReg x y) ∧ decode (formatXY 0x9#4 x y 0x0#4) = .ok (.sneReg x y) ∧
    (∀ n : Nibble, n ≠ 0x0#4 → decode (formatXY 0x5#4 x y n) = .error .class5 ∧ decode (formatXY 0x9#4 x y n) = .error .class9) ∧
    (∃ t, exec (.seReg x y) s = .next t ∧ t.pc = s.pc + (if s.getReg x = s.getReg y then 4 else 2) ∧ OnlyPc s t) ∧
    (∃ t, exec (.sneReg x y) s = .next t ∧ t.pc = s.pc + (if s.getReg x ≠ s.getReg y then 4 else 2) ∧ OnlyPc s t)

/-- `JPr V0,addr` (R107): the register is always `V[0]`, the sum is taken modulo 4096; a result of 0xFFF faults at the
next fetch. -/
def Obligations.JprAddsV0Modulo4096 : Prop :=
  ∀ (nnn : Addr12) (s : State), decode (formatAddr 0xB#4 nnn) = .ok (.jpr nnn) ∧
    ∃ t, exec (.jpr nnn) s = .next t ∧ t.pc.toNat = (nnn.toNat + (s.getReg 0x0#4).toNat) % 4096 ∧
      (t.pc.toNat = 0xFFF → NextFetchFaults t) ∧ OnlyPc s t

/-- The skip primitive (R108 with R103 to R106, R180, R181): each of the six skips advances `pc` by exactly 4 when its condition
holds and exactly 2 otherwise and changes nothing else; any state with the same registers and keys, whatever else it holds, the
skipped word among it, skips alike; a skip to 0x1000 or 0x1002 succeeds and the next fetch faults. -/
def Obligations.SkipsNeverReadTheSkippedWord : Prop :=
  ∀ (x y : Nibble) (kk : Byte) (s : State),
    ∀ p ∈ [(Instr.seImm x kk, decide (s.getReg x = kk)), (.sneImm x kk, decide (s.getReg x ≠ kk)),
      (.seReg x y, decide (s.getReg x = s.getReg y)), (.sneReg x y, decide (s.getReg x ≠ s.getReg y)),
      (.skp x, s.keyDown.getLsbD ((s.getReg x).toNat % 16)), (.sknp x, !s.keyDown.getLsbD ((s.getReg x).toNat % 16))],
    (∃ t, exec p.1 s = .next t ∧ t.pc = s.pc + (if p.2 then 4 else 2) ∧ OnlyPc s t ∧
      (0xFFE < t.pc.toNat → NextFetchFaults t)) ∧
    ∀ u : State, (∀ z, u.getReg z = s.getReg z) → u.keyDown = s.keyDown →
      exec p.1 u = .next { u with pc := u.pc + (if p.2 then 4 else 2) }

/-! ### Registers and arithmetic -/

/-- `LD Vx,imm` and `ADD Vx,imm` (R120, R121): no flag, `VF` changes only as the destination. -/
def Obligations.ImmediateLoadsAndAdds : Prop :=
  ∀ (x : Nibble) (kk : Byte) (s : State),
    decode (formatXI 0x6#4 x kk) = .ok (.ldImm x kk) ∧ decode (formatXI 0x7#4 x kk) = .ok (.addImm x kk) ∧
    (∃ t, exec (.ldImm x kk) s = .next t ∧ t.getReg x = kk ∧ t.pc = s.pc + 2 ∧ OnlyRegsAndPc [x] s t) ∧
    (∃ t, exec (.addImm x kk) s = .next t ∧ (t.getReg x).toNat = ((s.getReg x).toNat + kk.toNat) % 256 ∧
      t.pc = s.pc + 2 ∧ OnlyRegsAndPc [x] s t)

/-- `LD`, `OR`, `AND`, `XOR Vx,Vy` (R122 to R125): no flag. -/
def Obligations.CopyAndBitwise : Prop :=
  ∀ (x y : Nibble) (s : State),
    decode (formatXY 0x8#4 x y 0x0#4) = .ok (.ldReg x y) ∧ decode (formatXY 0x8#4 x y 0x1#4) = .ok (.orReg x y) ∧
    decode (formatXY 0x8#4 x y 0x2#4) = .ok (.andReg x y) ∧ decode (formatXY 0x8#4 x y 0x3#4) = .ok (.xorReg x y) ∧
    (∃ t, exec (.ldReg x y) s = .next t ∧ t.getReg x = s.getReg y ∧ t.pc = s.pc + 2 ∧ OnlyRegsAndPc [x] s t) ∧
    (∃ t, exec (.orReg x y) s = .next t ∧ t.getReg x = s.getReg x ||| s.getReg y ∧ t.pc = s.pc + 2 ∧ OnlyRegsAndPc [x] s t) ∧
    (∃ t, exec (.andReg x y) s = .next t ∧ t.getReg x = s.getReg x &&& s.getReg y ∧ t.pc = s.pc + 2 ∧ OnlyRegsAndPc [x] s t) ∧
    (∃ t, exec (.xorReg x y) s = .next t ∧ t.getReg x = s.getReg x ^^^ s.getReg y ∧ t.pc = s.pc + 2 ∧ OnlyRegsAndPc [x] s t)

/-- `ADD Vx,Vy` (R126, R132): the sum modulo 256, `VF` the carry, written last so that with `x = F` it survives. -/
def Obligations.AddSetsCarry : Prop :=
  ∀ (x y : Nibble) (s : State), decode (formatXY 0x8#4 x y 0x4#4) = .ok (.addReg x y) ∧
    ∃ t, exec (.addReg x y) s = .next t ∧
      (x ≠ VF → (t.getReg x).toNat = ((s.getReg x).toNat + (s.getReg y).toNat) % 256) ∧
      t.getReg VF = (if 255 < (s.getReg x).toNat + (s.getReg y).toNat then 0x01 else 0x00) ∧
      t.pc = s.pc + 2 ∧ OnlyRegsAndPc [x, VF] s t

/-- `SUB Vx,Vy` (R127, R132): the difference modulo 256, `VF = 1` when `V[x] >= V[y]` (no borrow). -/
def Obligations.SubSetsNoBorrow : Prop :=
  ∀ (x y : Nibble) (s : State), decode (formatXY 0x8#4 x y 0x5#4) = .ok (.subReg x y) ∧
    ∃ t, exec (.subReg x y) s = .next t ∧
      (x ≠ VF → (t.getReg x).toNat = ((s.getReg x).toNat + 256 - (s.getReg y).toNat) % 256) ∧
      t.getReg VF = (if (s.getReg y).toNat ≤ (s.getReg x).toNat then 0x01 else 0x00) ∧
      t.pc = s.pc + 2 ∧ OnlyRegsAndPc [x, VF] s t

/-- `SUBN Vx,Vy` (R128, R132): `V[y] - V[x]` to `V[x]`, `VF = 1` when `V[y] >= V[x]`. -/
def Obligations.SubnSetsNoBorrow : Prop :=
  ∀ (x y : Nibble) (s : State), decode (formatXY 0x8#4 x y 0x7#4) = .ok (.subnReg x y) ∧
    ∃ t, exec (.subnReg x y) s = .next t ∧
      (x ≠ VF → (t.getReg x).toNat = ((s.getReg y).toNat + 256 - (s.getReg x).toNat) % 256) ∧
      t.getReg VF = (if (s.getReg x).toNat ≤ (s.getReg y).toNat then 0x01 else 0x00) ∧
      t.pc = s.pc + 2 ∧ OnlyRegsAndPc [x, VF] s t

/-- `SHR Vx` and `SHL Vx` (R129, R130, R132): `V[x]` shifted by one whatever `y`, `VF` the bit shifted out. -/
def Obligations.ShiftsByOne : Prop :=
  ∀ (x y : Nibble) (s : State),
    decode (formatXY 0x8#4 x y 0x6#4) = .ok (.shr x y) ∧ decode (formatXY 0x8#4 x y 0xE#4) = .ok (.shl x y) ∧
    (∃ t, exec (.shr x y) s = .next t ∧ (x ≠ VF → (t.getReg x).toNat = (s.getReg x).toNat / 2) ∧
      (t.getReg VF).toNat = (s.getReg x).toNat % 2 ∧ t.pc = s.pc + 2 ∧ OnlyRegsAndPc [x, VF] s t) ∧
    (∃ t, exec (.shl x y) s = .next t ∧ (x ≠ VF → (t.getReg x).toNat = 2 * (s.getReg x).toNat % 256) ∧
      (t.getReg VF).toNat = (s.getReg x).toNat / 128 ∧ t.pc = s.pc + 2 ∧ OnlyRegsAndPc [x, VF] s t)

/-- `RND Vx,mask` (R131): some byte, masked: no bit outside the mask is set. The byte is the free value of log entry 9; nothing
is said of it. The model's count of draws advances. -/
def Obligations.RndKeepsWithinTheMask : Prop :=
  ∀ (x : Nibble) (kk : Byte) (s : State), decode (formatXI 0xC#4 x kk) = .ok (.rnd x kk) ∧
    ∃ t r, exec (.rnd x kk) s = .next t ∧ t.getReg x = r &&& kk ∧ t.getReg x &&& ~~~kk = 0 ∧ t.pc = s.pc + 2 ∧
      OnlyRegsAndPc [x] { s with draws := t.draws } t

/-! ### Index register and memory -/

/-- `SetIndex`, `AddIndex`, `SetCh` (R140 to R142): `I` never masked to 12 bits, no flag. -/
def Obligations.IndexInstructions : Prop :=
  ∀ (nnn : Addr12) (x : Nibble) (s : State),
    decode (formatAddr 0xA#4 nnn) = .ok (.setIndex nnn) ∧ decode (formatXI 0xF#4 x 0x1E#8) = .ok (.addIndex x) ∧
    decode (formatXI 0xF#4 x 0x29#8) = .ok (.setCh x) ∧
    (∃ t, exec (.setIndex nnn) s = .next t ∧ t.index.toNat = nnn.toNat ∧ t.pc = s.pc + 2 ∧ OnlyIndexAndPc s t) ∧
    (∃ t, exec (.addIndex x) s = .next t ∧ t.index.toNat = (s.index.toNat + (s.getReg x).toNat) % 65536 ∧
      t.pc = s.pc + 2 ∧ OnlyIndexAndPc s t) ∧
    (∃ t, exec (.setCh x) s = .next t ∧ t.index.toNat = (s.getReg x).toNat % 16 * 5 ∧ t.pc = s.pc + 2 ∧ OnlyIndexAndPc s t)

/-- `STD Vx` (R143, R146): hundreds, tens and ones at `I`, `I + 1`, `I + 2`, every other byte as before, `I` kept; out of range
it takes `AddressOutOfRange` with nothing written. -/
def Obligations.StdStoresTheDecimalDigits : Prop :=
  ∀ (x : Nibble) (s : State), decode (formatXI 0xF#4 x 0x33#8) = .ok (.std x) ∧
    (s.indexed 2 ≤ 0xFFF → ∃ t, exec (.std x) s = .next t ∧
      (t.readMem (s.indexed 0)).toNat = (s.getReg x).toNat / 100 ∧
      (t.readMem (s.indexed 1)).toNat = (s.getReg x).toNat / 10 % 10 ∧
      (t.readMem (s.indexed 2)).toNat = (s.getReg x).toNat % 10 ∧
      (∀ a, a < s.indexed 0 ∨ s.indexed 2 < a → t.readMem a = s.readMem a) ∧
      t.pc = s.pc + 2 ∧ SameRegsExcept [] s t ∧ t = { s with mem := t.mem, pc := t.pc }) ∧
    (0xFFF < s.indexed 2 → ∃ t, exec (.std x) s = .next t ∧ TakesFault .addressOutOfRange (formatXI 0xF#4 x 0x33#8) s t)

/-- `STR Vx` (R144, R146): `V0` to `Vx` at `I`, `I + 1`, ..., every other byte as before; `I` advances by `x + 1` only when
`is_super = 1`; out of range it takes `AddressOutOfRange` with nothing written. -/
def Obligations.StrStoresTheRegisters : Prop :=
  ∀ (x : Nibble) (s : State), decode (formatXI 0xF#4 x 0x55#8) = .ok (.str x) ∧
    (s.indexed x.toNat ≤ 0xFFF → ∃ t, exec (.str x) s = .next t ∧
      (∀ z : Nibble, z.toNat ≤ x.toNat → t.readMem (s.indexed z.toNat) = s.getReg z) ∧
      (∀ a, a < s.indexed 0 ∨ s.indexed x.toNat < a → t.readMem a = s.readMem a) ∧
      t.index.toNat = (if s.isSuper then (s.index.toNat + x.toNat + 1) % 65536 else s.index.toNat) ∧
      t.pc = s.pc + 2 ∧ SameRegsExcept [] s t ∧ t = { s with mem := t.mem, index := t.index, pc := t.pc }) ∧
    (0xFFF < s.indexed x.toNat → ∃ t, exec (.str x) s = .next t ∧
      TakesFault .addressOutOfRange (formatXI 0xF#4 x 0x55#8) s t)

/-- `LDR Vx` (R145, R146): `V0` to `Vx` from `I`, `I + 1`, ..., registers above `x` and all of memory as before; `I` as in `STR`;
out of range it takes `AddressOutOfRange` with nothing written. -/
def Obligations.LdrLoadsTheRegisters : Prop :=
  ∀ (x : Nibble) (s : State), decode (formatXI 0xF#4 x 0x65#8) = .ok (.ldr x) ∧
    (s.indexed x.toNat ≤ 0xFFF → ∃ t, exec (.ldr x) s = .next t ∧
      (∀ z : Nibble, t.getReg z = if z.toNat ≤ x.toNat then s.readMem (s.indexed z.toNat) else s.getReg z) ∧
      t.index.toNat = (if s.isSuper then (s.index.toNat + x.toNat + 1) % 65536 else s.index.toNat) ∧
      t.pc = s.pc + 2 ∧ SameMemory s t ∧ t = { s with regs := t.regs, index := t.index, pc := t.pc }) ∧
    (0xFFF < s.indexed x.toNat → ∃ t, exec (.ldr x) s = .next t ∧
      TakesFault .addressOutOfRange (formatXI 0xF#4 x 0x65#8) s t)

/-- The round trip of `STR` and `LDR` (R144, R145, 90_conflicts C7): from any later state with the memory the `STR` left, the
straps as before and `I` at its value before the `STR`, `LDR Vx` restores `V0` to `Vx`, and leaves `I` where the `STR` left it. -/
def Obligations.LdrRestoresWhatStrStored : Prop :=
  ∀ (x : Nibble) (s t u : State), s.indexed x.toNat ≤ 0xFFF → exec (.str x) s = .next t →
    SameMemory t u → u.index = s.index → u.isSuper = s.isSuper →
    ∃ v, exec (.ldr x) u = .next v ∧ (∀ z : Nibble, z.toNat ≤ x.toNat → v.getReg z = s.getReg z) ∧ v.index = t.index ∧
      (s.isSuper = false → v.index = s.index)

/-- Self-modifying code (R42, R51): the word at the address of `V[z]` after an `STR Vx` with `z < x` is `V[z] ++ V[z+1]`, so a
core that runs there and moves next runs what that word decodes to. -/
def Obligations.StoredWordIsTheNextFetch : Prop :=
  ∀ (x z : Nibble) (s t u v : State) (i : Instr), z.toNat < x.toNat → s.indexed x.toNat ≤ 0xFFF →
    exec (.str x) s = .next t → SameMemory t u → u.pc.toNat = s.indexed z.toNat → u.runState = .running →
    CoreMoves u v → decode (s.getReg z ++ s.getReg (z + 1)) = .ok i → step u = exec i v

/-! ### Display -/

/-- `CLS` (R162): every pixel of the geometry 0x00, one event with the clear buffer, nothing else. -/
def Obligations.ClsClearsTheDisplay : Prop :=
  decode 0x00E0#16 = .ok .cls ∧
  ∀ s : State, s.width = (if s.isExtended then 128 else 64) ∧ s.height = (if s.isExtended then 64 else 32) ∧
    ∃ t, exec .cls s = .next t ∧ (∀ X Y, X < s.width → Y < s.height → t.pixel X Y = 0x00) ∧
    (∃ b, t.events = s.events ++ [.displayUpdate b s.width s.height] ∧
      displayBytes b s.width s.height = List.replicate (s.width * s.height) 0x00) ∧
    t.pc = s.pc + 2 ∧ SameMemory s t ∧ SameRegsExcept [] s t ∧
    t = { s with display := t.display, events := t.events, pc := t.pc }

/-- `DRW Vx,Vy,n` (R163 to R166): exactly the pixels under a visible 1 bit of the sprite are toggled, `VF` says whether one of
them was set before, and the event carries the finished buffer; every register but `VF`, `I` and memory are as before. -/
def Obligations.DrwTogglesTheCoveredPixels : Prop :=
  ∀ (x y n : Nibble) (s : State), decode (formatXY 0xD#4 x y n) = .ok (.drw x y n) ∧
    (SpriteFits s n → ∃ t, exec (.drw x y n) s = .next t ∧
      (∀ X Y, X < s.width → Y < s.height →
        (SpriteCovers s (s.getReg x) (s.getReg y) (spriteRows s n) (spriteRowBytes s n) X Y →
          t.pixel X Y = s.pixel X Y ^^^ 0xFF) ∧
        (¬SpriteCovers s (s.getReg x) (s.getReg y) (spriteRows s n) (spriteRowBytes s n) X Y →
          t.pixel X Y = s.pixel X Y)) ∧
      (t.getReg VF = 0x00 ∨ t.getReg VF = 0x01) ∧
      (t.getReg VF = 0x01 ↔ ∃ X Y, X < s.width ∧ Y < s.height ∧
        SpriteCovers s (s.getReg x) (s.getReg y) (spriteRows s n) (spriteRowBytes s n) X Y ∧ s.pixel X Y = 0xFF) ∧
      t.events = s.events ++ [.displayUpdate t.display s.width s.height] ∧ t.pc = s.pc + 2 ∧
      SameMemory s t ∧ SameRegsExcept [VF] s t ∧
      t = { s with display := t.display, regs := t.regs, events := t.events, pc := t.pc }) ∧
    (¬SpriteFits s n → ∃ t, exec (.drw x y n) s = .next t ∧ TakesFault .addressOutOfRange (formatXY 0xD#4 x y n) s t)

/-- `DRW` with `n = 0` and `is_super = 0` (R164 (c)): zero rows, no address checked, `VF = 0`, the event still raised. -/
def Obligations.DrwOfZeroRows : Prop :=
  ∀ (x y : Nibble) (s : State), s.isSuper = false →
    ∃ t, exec (.drw x y 0x0#4) s = .next t ∧ t.display = s.display ∧ t.getReg VF = 0x00 ∧ t.pc = s.pc + 2 ∧
      t.events = s.events ++ [.displayUpdate s.display s.width s.height] ∧ SameMemory s t ∧ SameRegsExcept [VF] s t ∧
      t = { s with regs := t.regs, events := t.events, pc := t.pc }

/-- The XOR property (R168): over a canonical display, the same `DRW` twice, with neither coordinate in `VF`, restores every
pixel; the first draw collides exactly when it covers a set pixel, the second exactly when the first covered an unset one. -/
def Obligations.DrawingTwiceRestoresTheDisplay : Prop :=
  ∀ (x y n : Nibble) (s t u : State), Display.wf (s.width * s.height) s.display → x ≠ VF → y ≠ VF → SpriteFits s n →
    exec (.drw x y n) s = .next t → exec (.drw x y n) t = .next u →
    (∀ X Y, X < s.width → Y < s.height → u.pixel X Y = s.pixel X Y) ∧
    (t.getReg VF = 0x01 ↔ ∃ X Y, X < s.width ∧ Y < s.height ∧
      SpriteCovers s (s.getReg x) (s.getReg y) (spriteRows s n) (spriteRowBytes s n) X Y ∧ s.pixel X Y = 0xFF) ∧
    (u.getReg VF = 0x01 ↔ ∃ X Y, X < s.width ∧ Y < s.height ∧
      SpriteCovers s (s.getReg x) (s.getReg y) (spriteRows s n) (spriteRowBytes s n) X Y ∧ s.pixel X Y = 0x00)

/-! ### Keys and timers -/

/-- `SKP Vx` and `SKNP Vx` (R180, R181): only the low nibble of `V[x]` selects the key; the level is the one of this step. -/
def Obligations.KeySkips : Prop :=
  ∀ (x : Nibble) (s : State),
    decode (formatXI 0xE#4 x 0x9E#8) = .ok (.skp x) ∧ decode (formatXI 0xE#4 x 0xA1#8) = .ok (.sknp x) ∧
    (∃ t, exec (.skp x) s = .next t ∧
      t.pc = s.pc + (if s.keyDown.getLsbD ((s.getReg x).toNat % 16) = true then 4 else 2) ∧ OnlyPc s t) ∧
    (∃ t, exec (.sknp x) s = .next t ∧
      t.pc = s.pc + (if s.keyDown.getLsbD ((s.getReg x).toNat % 16) = true then 2 else 4) ∧ OnlyPc s t)

/-- `GetK Vx` (R182), the step that executes it: the core suspends with `key_dest = x`; `pc` and everything else stay. -/
def Obligations.GetKSuspendsTheCore : Prop :=
  ∀ (x : Nibble) (s : State), decode (formatXI 0xF#4 x 0x0A#8) = .ok (.getK x) ∧
    ∃ t, exec (.getK x) s = .next t ∧ t.runState = .awaitingKey ∧ t.keyDest = x ∧ t.pc = s.pc ∧
      SameMemory s t ∧ SameRegsExcept [] s t ∧ t = { s with runState := .awaitingKey, keyDest := x }

/-- The whole of `GetK Vx` (R182, R85): the core executes it, ticks may come, the host presents key `id`, and `V[x]` holds `id`,
`pc` stands behind the instruction, the core runs. Two core steps with a tick between them, from any running state. -/
def Obligations.GetKDeliversTheKey : Prop :=
  ∀ (x id : Nibble) (s : State) (rest : List Move), s.runState = .running → s.pc.toNat ≤ 0xFFE →
    s.fetch16 s.pc.toNat = formatXI 0xF#4 x 0x0A#8 → s.schedule = .core :: .tick :: .keyEvent id :: rest →
    ∃ t u v, step s = .next t ∧ step t = .next u ∧ step u = .next v ∧ t.runState = .awaitingKey ∧ u.runState = .awaitingKey ∧
      (v.getReg x).toNat = id.toNat ∧ v.pc = s.pc + 2 ∧ v.runState = .running ∧ SameRegsExcept [x] s v ∧ SameMemory s v

/-- `GetD`, `SetD`, `SetS` (R183 to R185): each one transaction on the pair that keeps the other half; `SetS` raises no beep. -/
def Obligations.TimerInstructions : Prop :=
  ∀ (x : Nibble) (s : State),
    decode (formatXI 0xF#4 x 0x07#8) = .ok (.getD x) ∧ decode (formatXI 0xF#4 x 0x15#8) = .ok (.setD x) ∧
    decode (formatXI 0xF#4 x 0x18#8) = .ok (.setS x) ∧
    (∃ t, exec (.getD x) s = .next t ∧ t.getReg x = s.delay ∧ t.pc = s.pc + 2 ∧ OnlyRegsAndPc [x] s t) ∧
    (∃ t, exec (.setD x) s = .next t ∧ t.delay = s.getReg x ∧ t.sound = s.sound ∧ t.pc = s.pc + 2 ∧ OnlyTimersAndPc s t) ∧
    (∃ t, exec (.setS x) s = .next t ∧ t.sound = s.getReg x ∧ t.delay = s.delay ∧ t.pc = s.pc + 2 ∧ OnlyTimersAndPc s t)

/-! ### The schedule -/

/-- Weak fairness of the Timer Service (R215, D18): from every state, within as many steps as moves are scheduled, the Timer
Service ticks, or the run stops where no step is: at a core that is halted, or at an image the host may not present. So in every
infinite run the Timer Service ticks again and again, whatever the free moves are. -/
def Obligations.TimerServiceTicksAgainAndAgain : Prop :=
  ∀ s : State, ∃ n t, n ≤ s.schedule.length ∧ StepsTo n s t ∧
    ((∃ u, TimerMoves t u ∧ step t = .next u.tick) ∨
      (t.runState = .halted ∧ (∃ u, CoreMoves t u) ∧ step t = .fault .coreHalted) ∨
      ∃ image straps rest, t.schedule = .reset image straps :: rest ∧ 3584 < image.length ∧ step t = .refused .imageTooLarge)

/-- What the fairness gives a program that waits (R215): from every state and under every schedule the delay timer reaches 0, unless
first the core comes to run a `SetD`, or halts and would move, or the host resets. -/
def Obligations.DelayReachesZero : Prop :=
  ∀ s : State, ∃ n t, StepsTo n s t ∧
    (t.delay = 0 ∨
      (∃ u, CoreMoves t u ∧ (t.runState = .halted ∨
        t.runState = .running ∧ ∃ x, decode (t.fetch16 t.pc.toNat) = .ok (.setD x))) ∨
      ∃ image straps rest, t.schedule = .reset image straps :: rest)
end

