-- ==== Sys2Proof/Laws/Bits.lean ====
section
/-! SUPPORT. Slices of a concatenation of bit vectors, and a bit vector as the concatenation of its slices. -/

namespace Sys2Proof

variable {a b w st : Nat}

/-- The high part of a concatenation. -/
theorem slice_append_high (d : BitVec a) (n : BitVec b) : (d ++ n).extractLsb' b a = d := by
  ext i hi
  rw [BitVec.getElem_extractLsb']
  simp [BitVec.getLsbD_append, hi]

/-- The low part of a concatenation. -/
theorem slice_append_low (d : BitVec a) (n : BitVec b) : (d ++ n).extractLsb' 0 b = n := by
  ext i hi
  rw [BitVec.getElem_extractLsb']
  simp [BitVec.getLsbD_append, hi]

/-- A slice that lies in the low part. -/
theorem slice_append_in_low (d : BitVec a) (n : BitVec b) (h : st + w ≤ b) :
    (d ++ n).extractLsb' st w = n.extractLsb' st w := by
  ext i hi
  rw [BitVec.getElem_extractLsb', BitVec.getElem_extractLsb']
  simp [BitVec.getLsbD_append, show st + i < b by omega]

/-- A slice that lies in the high part. -/
theorem slice_append_in_high (d : BitVec a) (n : BitVec b) (h : b ≤ st) :
    (d ++ n).extractLsb' st w = d.extractLsb' (st - b) w := by
  ext i hi
  rw [BitVec.getElem_extractLsb', BitVec.getElem_extractLsb']
  have h1 : ¬st + i < b := by omega
  simp [BitVec.getLsbD_append, h1]
  congr 1; omega

/-- A slice of a slice. -/
theorem slice_slice {st' w' : Nat} (u : BitVec a) (h : st' + w' ≤ w) :
    (u.extractLsb' st w).extractLsb' st' w' = u.extractLsb' (st + st') w' := by
  ext i hi
  rw [BitVec.getElem_extractLsb', BitVec.getElem_extractLsb', BitVec.getLsbD_extractLsb']
  have h1 : st' + i < w := by omega
  simp [h1, Nat.add_assoc]

/-- A bit vector is the concatenation of its two slices. -/
theorem append_slices (u : BitVec (a + b)) : u.extractLsb' b a ++ u.extractLsb' 0 b = u := by
  apply BitVec.eq_of_getLsbD_eq
  intro i hi
  rw [BitVec.getLsbD_append, BitVec.getLsbD_extractLsb', BitVec.getLsbD_extractLsb']
  by_cases h : i < b
  · simp [h]
  · have h1 : i - b < a := by omega
    have h2 : b + (i - b) = i := by omega
    simp [h, h1, h2]

/-- A bitwise AND of concatenations goes part by part. -/
theorem append_and_append (d d' : BitVec a) (n n' : BitVec b) : (d ++ n) &&& (d' ++ n') = (d &&& d') ++ (n &&& n') := by
  apply BitVec.eq_of_getLsbD_eq
  intro i _
  simp only [BitVec.getLsbD_and, BitVec.getLsbD_append]
  split <;> rfl

end Sys2Proof
end

