-- ==== Sys2Proof/Laws/State.lean ====
section
/-! SUPPORT. One lemma per field per update of the state, each true by rfl, so that no later proof unfolds a record update. -/

namespace Sys2Proof.Machine

variable (s : State)

/-! ### `setReg` -/

@[simp] theorem State.setReg_mem (x : Nibble) (v : Byte) : (s.setReg x v).mem = s.mem := rfl
@[simp] theorem State.setReg_regs (x : Nibble) (v : Byte) : (s.setReg x v).regs = s.regs.set x.toNat v x.isLt := rfl
@[simp] theorem State.setReg_stack (x : Nibble) (v : Byte) : (s.setReg x v).stack = s.stack := rfl
@[simp] theorem State.setReg_sp (x : Nibble) (v : Byte) : (s.setReg x v).sp = s.sp := rfl
@[simp] theorem State.setReg_pc (x : Nibble) (v : Byte) : (s.setReg x v).pc = s.pc := rfl
@[simp] theorem State.setReg_index (x : Nibble) (v : Byte) : (s.setReg x v).index = s.index := rfl
@[simp] theorem State.setReg_timers (x : Nibble) (v : Byte) : (s.setReg x v).timers = s.timers := rfl
@[simp] theorem State.setReg_display (x : Nibble) (v : Byte) : (s.setReg x v).display = s.display := rfl
@[simp] theorem State.setReg_isExtended (x : Nibble) (v : Byte) : (s.setReg x v).isExtended = s.isExtended := rfl
@[simp] theorem State.setReg_isSuper (x : Nibble) (v : Byte) : (s.setReg x v).isSuper = s.isSuper := rfl
@[simp] theorem State.setReg_wrapPolicy (x : Nibble) (v : Byte) : (s.setReg x v).wrapPolicy = s.wrapPolicy := rfl
@[simp] theorem State.setReg_runState (x : Nibble) (v : Byte) : (s.setReg x v).runState = s.runState := rfl
@[simp] theorem State.setReg_keyDest (x : Nibble) (v : Byte) : (s.setReg x v).keyDest = s.keyDest := rfl
@[simp] theorem State.setReg_errorKind (x : Nibble) (v : Byte) : (s.setReg x v).errorKind = s.errorKind := rfl
@[simp] theorem State.setReg_faultPc (x : Nibble) (v : Byte) : (s.setReg x v).faultPc = s.faultPc := rfl
@[simp] theorem State.setReg_faultOpcode (x : Nibble) (v : Byte) : (s.setReg x v).faultOpcode = s.faultOpcode := rfl
@[simp] theorem State.setReg_events (x : Nibble) (v : Byte) : (s.setReg x v).events = s.events := rfl
@[simp] theorem State.setReg_keyDown (x : Nibble) (v : Byte) : (s.setReg x v).keyDown = s.keyDown := rfl
@[simp] theorem State.setReg_schedule (x : Nibble) (v : Byte) : (s.setReg x v).schedule = s.schedule := rfl
@[simp] theorem State.setReg_draws (x : Nibble) (v : Byte) : (s.setReg x v).draws = s.draws := rfl
@[simp] theorem State.setReg_readMem (x : Nibble) (v : Byte) (i : Nat) : (s.setReg x v).readMem i = s.readMem i := rfl
@[simp] theorem State.setReg_delay (x : Nibble) (v : Byte) : (s.setReg x v).delay = s.delay := rfl
@[simp] theorem State.setReg_sound (x : Nibble) (v : Byte) : (s.setReg x v).sound = s.sound := rfl
@[simp] theorem State.setReg_width (x : Nibble) (v : Byte) : (s.setReg x v).width = s.width := rfl
@[simp] theorem State.setReg_height (x : Nibble) (v : Byte) : (s.setReg x v).height = s.height := rfl
@[simp] theorem State.setReg_pixel (x : Nibble) (v : Byte) (X Y : Nat) : (s.setReg x v).pixel X Y = s.pixel X Y := rfl

/-! ### `setPc` -/

@[simp] theorem State.setPc_mem (a : Word) : (s.setPc a).mem = s.mem := rfl
@[simp] theorem State.setPc_regs (a : Word) : (s.setPc a).regs = s.regs := rfl
@[simp] theorem State.setPc_stack (a : Word) : (s.setPc a).stack = s.stack := rfl
@[simp] theorem State.setPc_sp (a : Word) : (s.setPc a).sp = s.sp := rfl
@[simp] theorem State.setPc_pc (a : Word) : (s.setPc a).pc = a := rfl
@[simp] theorem State.setPc_index (a : Word) : (s.setPc a).index = s.index := rfl
@[simp] theorem State.setPc_timers (a : Word) : (s.setPc a).timers = s.timers := rfl
@[simp] theorem State.setPc_display (a : Word) : (s.setPc a).display = s.display := rfl
@[simp] theorem State.setPc_isExtended (a : Word) : (s.setPc a).isExtended = s.isExtended := rfl
@[simp] theorem State.setPc_isSuper (a : Word) : (s.setPc a).isSuper = s.isSuper := rfl
@[simp] theorem State.setPc_wrapPolicy (a : Word) : (s.setPc a).wrapPolicy = s.wrapPolicy := rfl
@[simp] theorem State.setPc_runState (a : Word) : (s.setPc a).runState = s.runState := rfl
@[simp] theorem State.setPc_keyDest (a : Word) : (s.setPc a).keyDest = s.keyDest := rfl
@[simp] theorem State.setPc_errorKind (a : Word) : (s.setPc a).errorKind = s.errorKind := rfl
@[simp] theorem State.setPc_faultPc (a : Word) : (s.setPc a).faultPc = s.faultPc := rfl
@[simp] theorem State.setPc_faultOpcode (a : Word) : (s.setPc a).faultOpcode = s.faultOpcode := rfl
@[simp] theorem State.setPc_events (a : Word) : (s.setPc a).events = s.events := rfl
@[simp] theorem State.setPc_keyDown (a : Word) : (s.setPc a).keyDown = s.keyDown := rfl
@[simp] theorem State.setPc_schedule (a : Word) : (s.setPc a).schedule = s.schedule := rfl
@[simp] theorem State.setPc_draws (a : Word) : (s.setPc a).draws = s.draws := rfl
@[simp] theorem State.setPc_getReg (a : Word) (z : Nibble) : (s.setPc a).getReg z = s.getReg z := rfl
@[simp] theorem State.setPc_readMem (a : Word) (i : Nat) : (s.setPc a).readMem i = s.readMem i := rfl
@[simp] theorem State.setPc_delay (a : Word) : (s.setPc a).delay = s.delay := rfl
@[simp] theorem State.setPc_sound (a : Word) : (s.setPc a).sound = s.sound := rfl
@[simp] theorem State.setPc_width (a : Word) : (s.setPc a).width = s.width := rfl
@[simp] theorem State.setPc_height (a : Word) : (s.setPc a).height = s.height := rfl
@[simp] theorem State.setPc_pixel (a : Word) (X Y : Nat) : (s.setPc a).pixel X Y = s.pixel X Y := rfl

/-! ### `setIndex` -/

@[simp] theorem State.setIndex_mem (a : Word) : (s.setIndex a).mem = s.mem := rfl
@[simp] theorem State.setIndex_regs (a : Word) : (s.setIndex a).regs = s.regs := rfl
@[simp] theorem State.setIndex_stack (a : Word) : (s.setIndex a).stack = s.stack := rfl
@[simp] theorem State.setIndex_sp (a : Word) : (s.setIndex a).sp = s.sp := rfl
@[simp] theorem State.setIndex_pc (a : Word) : (s.setIndex a).pc = s.pc := rfl
@[simp] theorem State.setIndex_index (a : Word) : (s.setIndex a).index = a := rfl
@[simp] theorem State.setIndex_timers (a : Word) : (s.setIndex a).timers = s.timers := rfl
@[simp] theorem State.setIndex_display (a : Word) : (s.setIndex a).display = s.display := rfl
@[simp] theorem State.setIndex_isExtended (a : Word) : (s.setIndex a).isExtended = s.isExtended := rfl
@[simp] theorem State.setIndex_isSuper (a : Word) : (s.setIndex a).isSuper = s.isSuper := rfl
@[simp] theorem State.setIndex_wrapPolicy (a : Word) : (s.setIndex a).wrapPolicy = s.wrapPolicy := rfl
@[simp] theorem State.setIndex_runState (a : Word) : (s.setIndex a).runState = s.runState := rfl
@[simp] theorem State.setIndex_keyDest (a : Word) : (s.setIndex a).keyDest = s.keyDest := rfl
@[simp] theorem State.setIndex_errorKind (a : Word) : (s.setIndex a).errorKind = s.errorKind := rfl
@[simp] theorem State.setIndex_faultPc (a : Word) : (s.setIndex a).faultPc = s.faultPc := rfl
@[simp] theorem State.setIndex_faultOpcode (a : Word) : (s.setIndex a).faultOpcode = s.faultOpcode := rfl
@[simp] theorem State.setIndex_events (a : Word) : (s.setIndex a).events = s.events := rfl
@[simp] theorem State.setIndex_keyDown (a : Word) : (s.setIndex a).keyDown = s.keyDown := rfl
@[simp] theorem State.setIndex_schedule (a : Word) : (s.setIndex a).schedule = s.schedule := rfl
@[simp] theorem State.setIndex_draws (a : Word) : (s.setIndex a).draws = s.draws := rfl
@[simp] theorem State.setIndex_getReg (a : Word) (z : Nibble) : (s.setIndex a).getReg z = s.getReg z := rfl
@[simp] theorem State.setIndex_readMem (a : Word) (i : Nat) : (s.setIndex a).readMem i = s.readMem i := rfl
@[simp] theorem State.setIndex_delay (a : Word) : (s.setIndex a).delay = s.delay := rfl
@[simp] theorem State.setIndex_sound (a : Word) : (s.setIndex a).sound = s.sound := rfl
@[simp] theorem State.setIndex_width (a : Word) : (s.setIndex a).width = s.width := rfl
@[simp] theorem State.setIndex_height (a : Word) : (s.setIndex a).height = s.height := rfl
@[simp] theorem State.setIndex_pixel (a : Word) (X Y : Nat) : (s.setIndex a).pixel X Y = s.pixel X Y := rfl

/-! ### `writeMem` -/

@[simp] theorem State.writeMem_mem (a : Nat) (b : Byte) : (s.writeMem a b).mem = Store.write resetByte s.mem a b := rfl
@[simp] theorem State.writeMem_regs (a : Nat) (b : Byte) : (s.writeMem a b).regs = s.regs := rfl
@[simp] theorem State.writeMem_stack (a : Nat) (b : Byte) : (s.writeMem a b).stack = s.stack := rfl
@[simp] theorem State.writeMem_sp (a : Nat) (b : Byte) : (s.writeMem a b).sp = s.sp := rfl
@[simp] theorem State.writeMem_pc (a : Nat) (b : Byte) : (s.writeMem a b).pc = s.pc := rfl
@[simp] theorem State.writeMem_index (a : Nat) (b : Byte) : (s.writeMem a b).index = s.index := rfl
@[simp] theorem State.writeMem_timers (a : Nat) (b : Byte) : (s.writeMem a b).timers = s.timers := rfl
@[simp] theorem State.writeMem_display (a : Nat) (b : Byte) : (s.writeMem a b).display = s.display := rfl
@[simp] theorem State.writeMem_isExtended (a : Nat) (b : Byte) : (s.writeMem a b).isExtended = s.isExtended := rfl
@[simp] theorem State.writeMem_isSuper (a : Nat) (b : Byte) : (s.writeMem a b).isSuper = s.isSuper := rfl
@[simp] theorem State.writeMem_wrapPolicy (a : Nat) (b : Byte) : (s.writeMem a b).wrapPolicy = s.wrapPolicy := rfl
@[simp] theorem State.writeMem_runState (a : Nat) (b : Byte) : (s.writeMem a b).runState = s.runState := rfl
@[simp] theorem State.writeMem_keyDest (a : Nat) (b : Byte) : (s.writeMem a b).keyDest = s.keyDest := rfl
@[simp] theorem State.writeMem_errorKind (a : Nat) (b : Byte) : (s.writeMem a b).errorKind = s.errorKind := rfl
@[simp] theorem State.writeMem_faultPc (a : Nat) (b : Byte) : (s.writeMem a b).faultPc = s.faultPc := rfl
@[simp] theorem State.writeMem_faultOpcode (a : Nat) (b : Byte) : (s.writeMem a b).faultOpcode = s.faultOpcode := rfl
@[simp] theorem State.writeMem_events (a : Nat) (b : Byte) : (s.writeMem a b).events = s.events := rfl
@[simp] theorem State.writeMem_keyDown (a : Nat) (b : Byte) : (s.writeMem a b).keyDown = s.keyDown := rfl
@[simp] theorem State.writeMem_schedule (a : Nat) (b : Byte) : (s.writeMem a b).schedule = s.schedule := rfl
@[simp] theorem State.writeMem_draws (a : Nat) (b : Byte) : (s.writeMem a b).draws = s.draws := rfl
@[simp] theorem State.writeMem_getReg (a : Nat) (b : Byte) (z : Nibble) : (s.writeMem a b).getReg z = s.getReg z := rfl
@[simp] theorem State.writeMem_delay (a : Nat) (b : Byte) : (s.writeMem a b).delay = s.delay := rfl
@[simp] theorem State.writeMem_sound (a : Nat) (b : Byte) : (s.writeMem a b).sound = s.sound := rfl
@[simp] theorem State.writeMem_width (a : Nat) (b : Byte) : (s.writeMem a b).width = s.width := rfl
@[simp] theorem State.writeMem_height (a : Nat) (b : Byte) : (s.writeMem a b).height = s.height := rfl
@[simp] theorem State.writeMem_pixel (a : Nat) (b : Byte) (X Y : Nat) : (s.writeMem a b).pixel X Y = s.pixel X Y := rfl

/-! ### `advance` -/

@[simp] theorem State.advance_mem : (s.advance).mem = s.mem := rfl
@[simp] theorem State.advance_regs : (s.advance).regs = s.regs := rfl
@[simp] theorem State.advance_stack : (s.advance).stack = s.stack := rfl
@[simp] theorem State.advance_sp : (s.advance).sp = s.sp := rfl
@[simp] theorem State.advance_pc : (s.advance).pc = s.pc + 2 := rfl
@[simp] theorem State.advance_index : (s.advance).index = s.index := rfl
@[simp] theorem State.advance_timers : (s.advance).timers = s.timers := rfl
@[simp] theorem State.advance_display : (s.advance).display = s.display := rfl
@[simp] theorem State.advance_isExtended : (s.advance).isExtended = s.isExtended := rfl
@[simp] theorem State.advance_isSuper : (s.advance).isSuper = s.isSuper := rfl
@[simp] theorem State.advance_wrapPolicy : (s.advance).wrapPolicy = s.wrapPolicy := rfl
@[simp] theorem State.advance_runState : (s.advance).runState = s.runState := rfl
@[simp] theorem State.advance_keyDest : (s.advance).keyDest = s.keyDest := rfl
@[simp] theorem State.advance_errorKind : (s.advance).errorKind = s.errorKind := rfl
@[simp] theorem State.advance_faultPc : (s.advance).faultPc = s.faultPc := rfl
@[simp] theorem State.advance_faultOpcode : (s.advance).faultOpcode = s.faultOpcode := rfl
@[simp] theorem State.advance_events : (s.advance).events = s.events := rfl
@[simp] theorem State.advance_keyDown : (s.advance).keyDown = s.keyDown := rfl
@[simp] theorem State.advance_schedule : (s.advance).schedule = s.schedule := rfl
@[simp] theorem State.advance_draws : (s.advance).draws = s.draws := rfl
@[simp] theorem State.advance_getReg (z : Nibble) : (s.advance).getReg z = s.getReg z := rfl
@[simp] theorem State.advance_readMem (i : Nat) : (s.advance).readMem i = s.readMem i := rfl
@[simp] theorem State.advance_delay : (s.advance).delay = s.delay := rfl
@[simp] theorem State.advance_sound : (s.advance).sound = s.sound := rfl
@[simp] theorem State.advance_width : (s.advance).width = s.width := rfl
@[simp] theorem State.advance_height : (s.advance).height = s.height := rfl
@[simp] theorem State.advance_pixel (X Y : Nat) : (s.advance).pixel X Y = s.pixel X Y := rfl

/-! ### `skip` -/

@[simp] theorem State.skip_mem (c : Bool) : (s.skip c).mem = s.mem := rfl
@[simp] theorem State.skip_regs (c : Bool) : (s.skip c).regs = s.regs := rfl
@[simp] theorem State.skip_stack (c : Bool) : (s.skip c).stack = s.stack := rfl
@[simp] theorem State.skip_sp (c : Bool) : (s.skip c).sp = s.sp := rfl
@[simp] theorem State.skip_pc (c : Bool) : (s.skip c).pc = s.pc + if c then 4 else 2 := rfl
@[simp] theorem State.skip_index (c : Bool) : (s.skip c).index = s.index := rfl
@[simp] theorem State.skip_timers (c : Bool) : (s.skip c).timers = s.timers := rfl
@[simp] theorem State.skip_display (c : Bool) : (s.skip c).display = s.display := rfl
@[simp] theorem State.skip_isExtended (c : Bool) : (s.skip c).isExtended = s.isExtended := rfl
@[simp] theorem State.skip_isSuper (c : Bool) : (s.skip c).isSuper = s.isSuper := rfl
@[simp] theorem State.skip_wrapPolicy (c : Bool) : (s.skip c).wrapPolicy = s.wrapPolicy := rfl
@[simp] theorem State.skip_runState (c : Bool) : (s.skip c).runState = s.runState := rfl
@[simp] theorem State.skip_keyDest (c : Bool) : (s.skip c).keyDest = s.keyDest := rfl
@[simp] theorem State.skip_errorKind (c : Bool) : (s.skip c).errorKind = s.errorKind := rfl
@[simp] theorem State.skip_faultPc (c : Bool) : (s.skip c).faultPc = s.faultPc := rfl
@[simp] theorem State.skip_faultOpcode (c : Bool) : (s.skip c).faultOpcode = s.faultOpcode := rfl
@[simp] theorem State.skip_events (c : Bool) : (s.skip c).events = s.events := rfl
@[simp] theorem State.skip_keyDown (c : Bool) : (s.skip c).keyDown = s.keyDown := rfl
@[simp] theorem State.skip_schedule (c : Bool) : (s.skip c).schedule = s.schedule := rfl
@[simp] theorem State.skip_draws (c : Bool) : (s.skip c).draws = s.draws := rfl
@[simp] theorem State.skip_getReg (c : Bool) (z : Nibble) : (s.skip c).getReg z = s.getReg z := rfl
@[simp] theorem State.skip_readMem (c : Bool) (i : Nat) : (s.skip c).readMem i = s.readMem i := rfl
@[simp] theorem State.skip_delay (c : Bool) : (s.skip c).delay = s.delay := rfl
@[simp] theorem State.skip_sound (c : Bool) : (s.skip c).sound = s.sound := rfl
@[simp] theorem State.skip_width (c : Bool) : (s.skip c).width = s.width := rfl
@[simp] theorem State.skip_height (c : Bool) : (s.skip c).height = s.height := rfl
@[simp] theorem State.skip_pixel (c : Bool) (X Y : Nat) : (s.skip c).pixel X Y = s.pixel X Y := rfl

/-! ### `atomicPairUpdate` -/

@[simp] theorem State.atomicPairUpdate_mem (f : Byte → Byte → Byte × Byte) : (s.atomicPairUpdate f).mem = s.mem := rfl
@[simp] theorem State.atomicPairUpdate_regs (f : Byte → Byte → Byte × Byte) : (s.atomicPairUpdate f).regs = s.regs := rfl
@[simp] theorem State.atomicPairUpdate_stack (f : Byte → Byte → Byte × Byte) : (s.atomicPairUpdate f).stack = s.stack := rfl
@[simp] theorem State.atomicPairUpdate_sp (f : Byte → Byte → Byte × Byte) : (s.atomicPairUpdate f).sp = s.sp := rfl
@[simp] theorem State.atomicPairUpdate_pc (f : Byte → Byte → Byte × Byte) : (s.atomicPairUpdate f).pc = s.pc := rfl
@[simp] theorem State.atomicPairUpdate_index (f : Byte → Byte → Byte × Byte) : (s.atomicPairUpdate f).index = s.index := rfl
@[simp] theorem State.atomicPairUpdate_timers (f : Byte → Byte → Byte × Byte) : (s.atomicPairUpdate f).timers = (f s.delay s.sound).1 ++ (f s.delay s.sound).2 := rfl
@[simp] theorem State.atomicPairUpdate_display (f : Byte → Byte → Byte × Byte) : (s.atomicPairUpdate f).display = s.display := rfl
@[simp] theorem State.atomicPairUpdate_isExtended (f : Byte → Byte → Byte × Byte) : (s.atomicPairUpdate f).isExtended = s.isExtended := rfl
@[simp] theorem State.atomicPairUpdate_isSuper (f : Byte → Byte → Byte × Byte) : (s.atomicPairUpdate f).isSuper = s.isSuper := rfl
@[simp] theorem State.atomicPairUpdate_wrapPolicy (f : Byte → Byte → Byte × Byte) : (s.atomicPairUpdate f).wrapPolicy = s.wrapPolicy := rfl
@[simp] theorem State.atomicPairUpdate_runState (f : Byte → Byte → Byte × Byte) : (s.atomicPairUpdate f).runState = s.runState := rfl
@[simp] theorem State.atomicPairUpdate_keyDest (f : Byte → Byte → Byte × Byte) : (s.atomicPairUpdate f).keyDest = s.keyDest := rfl
@[simp] theorem State.atomicPairUpdate_errorKind (f : Byte → Byte → Byte × Byte) : (s.atomicPairUpdate f).errorKind = s.errorKind := rfl
@[simp] theorem State.atomicPairUpdate_faultPc (f : Byte → Byte → Byte × Byte) : (s.atomicPairUpdate f).faultPc = s.faultPc := rfl
@[simp] theorem State.atomicPairUpdate_faultOpcode (f : Byte → Byte → Byte × Byte) : (s.atomicPairUpdate f).faultOpcode = s.faultOpcode := rfl
@[simp] theorem State.atomicPairUpdate_events (f : Byte → Byte → Byte × Byte) : (s.atomicPairUpdate f).events = s.events := rfl
@[simp] theorem State.atomicPairUpdate_keyDown (f : Byte → Byte → Byte × Byte) : (s.atomicPairUpdate f).keyDown = s.keyDown := rfl
@[simp] theorem State.atomicPairUpdate_schedule (f : Byte → Byte → Byte × Byte) : (s.atomicPairUpdate f).schedule = s.schedule := rfl
@[simp] theorem State.atomicPairUpdate_draws (f : Byte → Byte → Byte × Byte) : (s.atomicPairUpdate f).draws = s.draws := rfl
@[simp] theorem State.atomicPairUpdate_getReg (f : Byte → Byte → Byte × Byte) (z : Nibble) : (s.atomicPairUpdate f).getReg z = s.getReg z := rfl
@[simp] theorem State.atomicPairUpdate_readMem (f : Byte → Byte → Byte × Byte) (i : Nat) : (s.atomicPairUpdate f).readMem i = s.readMem i := rfl
@[simp] theorem State.atomicPairUpdate_width (f : Byte → Byte → Byte × Byte) : (s.atomicPairUpdate f).width = s.width := rfl
@[simp] theorem State.atomicPairUpdate_height (f : Byte → Byte → Byte × Byte) : (s.atomicPairUpdate f).height = s.height := rfl
@[simp] theorem State.atomicPairUpdate_pixel (f : Byte → Byte → Byte × Byte) (X Y : Nat) : (s.atomicPairUpdate f).pixel X Y = s.pixel X Y := rfl

/-! ### `emitDisplayUpdate` -/

@[simp] theorem State.emitDisplayUpdate_mem : (s.emitDisplayUpdate).mem = s.mem := rfl
@[simp] theorem State.emitDisplayUpdate_regs : (s.emitDisplayUpdate).regs = s.regs := rfl
@[simp] theorem State.emitDisplayUpdate_stack : (s.emitDisplayUpdate).stack = s.stack := rfl
@[simp] theorem State.emitDisplayUpdate_sp : (s.emitDisplayUpdate).sp = s.sp := rfl
@[simp] theorem State.emitDisplayUpdate_pc : (s.emitDisplayUpdate).pc = s.pc := rfl
@[simp] theorem State.emitDisplayUpdate_index : (s.emitDisplayUpdate).index = s.index := rfl
@[simp] theorem State.emitDisplayUpdate_timers : (s.emitDisplayUpdate).timers = s.timers := rfl
@[simp] theorem State.emitDisplayUpdate_display : (s.emitDisplayUpdate).display = s.display := rfl
@[simp] theorem State.emitDisplayUpdate_isExtended : (s.emitDisplayUpdate).isExtended = s.isExtended := rfl
@[simp] theorem State.emitDisplayUpdate_isSuper : (s.emitDisplayUpdate).isSuper = s.isSuper := rfl
@[simp] theorem State.emitDisplayUpdate_wrapPolicy : (s.emitDisplayUpdate).wrapPolicy = s.wrapPolicy := rfl
@[simp] theorem State.emitDisplayUpdate_runState : (s.emitDisplayUpdate).runState = s.runState := rfl
@[simp] theorem State.emitDisplayUpdate_keyDest : (s.emitDisplayUpdate).keyDest = s.keyDest := rfl
@[simp] theorem State.emitDisplayUpdate_errorKind : (s.emitDisplayUpdate).errorKind = s.errorKind := rfl
@[simp] theorem State.emitDisplayUpdate_faultPc : (s.emitDisplayUpdate).faultPc = s.faultPc := rfl
@[simp] theorem State.emitDisplayUpdate_faultOpcode : (s.emitDisplayUpdate).faultOpcode = s.faultOpcode := rfl
@[simp] theorem State.emitDisplayUpdate_events : (s.emitDisplayUpdate).events = s.events ++ [.displayUpdate s.display s.width s.height] := rfl
@[simp] theorem State.emitDisplayUpdate_keyDown : (s.emitDisplayUpdate).keyDown = s.keyDown := rfl
@[simp] theorem State.emitDisplayUpdate_schedule : (s.emitDisplayUpdate).schedule = s.schedule := rfl
@[simp] theorem State.emitDisplayUpdate_draws : (s.emitDisplayUpdate).draws = s.draws := rfl
@[simp] theorem State.emitDisplayUpdate_getReg (z : Nibble) : (s.emitDisplayUpdate).getReg z = s.getReg z := rfl
@[simp] theorem State.emitDisplayUpdate_readMem (i : Nat) : (s.emitDisplayUpdate).readMem i = s.readMem i := rfl
@[simp] theorem State.emitDisplayUpdate_delay : (s.emitDisplayUpdate).delay = s.delay := rfl
@[simp] theorem State.emitDisplayUpdate_sound : (s.emitDisplayUpdate).sound = s.sound := rfl
@[simp] theorem State.emitDisplayUpdate_width : (s.emitDisplayUpdate).width = s.width := rfl
@[simp] theorem State.emitDisplayUpdate_height : (s.emitDisplayUpdate).height = s.height := rfl
@[simp] theorem State.emitDisplayUpdate_pixel (X Y : Nat) : (s.emitDisplayUpdate).pixel X Y = s.pixel X Y := rfl

/-! ### `emitBeep` -/

@[simp] theorem State.emitBeep_mem : (s.emitBeep).mem = s.mem := rfl
@[simp] theorem State.emitBeep_regs : (s.emitBeep).regs = s.regs := rfl
@[simp] theorem State.emitBeep_stack : (s.emitBeep).stack = s.stack := rfl
@[simp] theorem State.emitBeep_sp : (s.emitBeep).sp = s.sp := rfl
@[simp] theorem State.emitBeep_pc : (s.emitBeep).pc = s.pc := rfl
@[simp] theorem State.emitBeep_index : (s.emitBeep).index = s.index := rfl
@[simp] theorem State.emitBeep_timers : (s.emitBeep).timers = s.timers := rfl
@[simp] theorem State.emitBeep_display : (s.emitBeep).display = s.display := rfl
@[simp] theorem State.emitBeep_isExtended : (s.emitBeep).isExtended = s.isExtended := rfl
@[simp] theorem State.emitBeep_isSuper : (s.emitBeep).isSuper = s.isSuper := rfl
@[simp] theorem State.emitBeep_wrapPolicy : (s.emitBeep).wrapPolicy = s.wrapPolicy := rfl
@[simp] theorem State.emitBeep_runState : (s.emitBeep).runState = s.runState := rfl
@[simp] theorem State.emitBeep_keyDest : (s.emitBeep).keyDest = s.keyDest := rfl
@[simp] theorem State.emitBeep_errorKind : (s.emitBeep).errorKind = s.errorKind := rfl
@[simp] theorem State.emitBeep_faultPc : (s.emitBeep).faultPc = s.faultPc := rfl
@[simp] theorem State.emitBeep_faultOpcode : (s.emitBeep).faultOpcode = s.faultOpcode := rfl
@[simp] theorem State.emitBeep_events : (s.emitBeep).events = s.events ++ [.beep] := rfl
@[simp] theorem State.emitBeep_keyDown : (s.emitBeep).keyDown = s.keyDown := rfl
@[simp] theorem State.emitBeep_schedule : (s.emitBeep).schedule = s.schedule := rfl
@[simp] theorem State.emitBeep_draws : (s.emitBeep).draws = s.draws := rfl
@[simp] theorem State.emitBeep_getReg (z : Nibble) : (s.emitBeep).getReg z = s.getReg z := rfl
@[simp] theorem State.emitBeep_readMem (i : Nat) : (s.emitBeep).readMem i = s.readMem i := rfl
@[simp] theorem State.emitBeep_delay : (s.emitBeep).delay = s.delay := rfl
@[simp] theorem State.emitBeep_sound : (s.emitBeep).sound = s.sound := rfl
@[simp] theorem State.emitBeep_width : (s.emitBeep).width = s.width := rfl
@[simp] theorem State.emitBeep_height : (s.emitBeep).height = s.height := rfl
@[simp] theorem State.emitBeep_pixel (X Y : Nat) : (s.emitBeep).pixel X Y = s.pixel X Y := rfl

/-! ### `drawMoves` -/

@[simp] theorem State.drawMoves_mem : (s.drawMoves).mem = s.mem := rfl
@[simp] theorem State.drawMoves_regs : (s.drawMoves).regs = s.regs := rfl
@[simp] theorem State.drawMoves_stack : (s.drawMoves).stack = s.stack := rfl
@[simp] theorem State.drawMoves_sp : (s.drawMoves).sp = s.sp := rfl
@[simp] theorem State.drawMoves_pc : (s.drawMoves).pc = s.pc := rfl
@[simp] theorem State.drawMoves_index : (s.drawMoves).index = s.index := rfl
@[simp] theorem State.drawMoves_timers : (s.drawMoves).timers = s.timers := rfl
@[simp] theorem State.drawMoves_display : (s.drawMoves).display = s.display := rfl
@[simp] theorem State.drawMoves_isExtended : (s.drawMoves).isExtended = s.isExtended := rfl
@[simp] theorem State.drawMoves_isSuper : (s.drawMoves).isSuper = s.isSuper := rfl
@[simp] theorem State.drawMoves_wrapPolicy : (s.drawMoves).wrapPolicy = s.wrapPolicy := rfl
@[simp] theorem State.drawMoves_runState : (s.drawMoves).runState = s.runState := rfl
@[simp] theorem State.drawMoves_keyDest : (s.drawMoves).keyDest = s.keyDest := rfl
@[simp] theorem State.drawMoves_errorKind : (s.drawMoves).errorKind = s.errorKind := rfl
@[simp] theorem State.drawMoves_faultPc : (s.drawMoves).faultPc = s.faultPc := rfl
@[simp] theorem State.drawMoves_faultOpcode : (s.drawMoves).faultOpcode = s.faultOpcode := rfl
@[simp] theorem State.drawMoves_events : (s.drawMoves).events = s.events := rfl
@[simp] theorem State.drawMoves_keyDown : (s.drawMoves).keyDown = s.keyDown := rfl
@[simp] theorem State.drawMoves_schedule : (s.drawMoves).schedule = Config.freeMoves s.draws := rfl
@[simp] theorem State.drawMoves_draws : (s.drawMoves).draws = s.draws + 1 := rfl
@[simp] theorem State.drawMoves_getReg (z : Nibble) : (s.drawMoves).getReg z = s.getReg z := rfl
@[simp] theorem State.drawMoves_readMem (i : Nat) : (s.drawMoves).readMem i = s.readMem i := rfl
@[simp] theorem State.drawMoves_delay : (s.drawMoves).delay = s.delay := rfl
@[simp] theorem State.drawMoves_sound : (s.drawMoves).sound = s.sound := rfl
@[simp] theorem State.drawMoves_width : (s.drawMoves).width = s.width := rfl
@[simp] theorem State.drawMoves_height : (s.drawMoves).height = s.height := rfl
@[simp] theorem State.drawMoves_pixel (X Y : Nat) : (s.drawMoves).pixel X Y = s.pixel X Y := rfl

/-! ### `raise` -/

@[simp] theorem State.raise_mem (k : ErrorKind) (w : Word) : (s.raise k w).mem = s.mem := rfl
@[simp] theorem State.raise_regs (k : ErrorKind) (w : Word) : (s.raise k w).regs = s.regs := rfl
@[simp] theorem State.raise_stack (k : ErrorKind) (w : Word) : (s.raise k w).stack = s.stack := rfl
@[simp] theorem State.raise_sp (k : ErrorKind) (w : Word) : (s.raise k w).sp = s.sp := rfl
@[simp] theorem State.raise_pc (k : ErrorKind) (w : Word) : (s.raise k w).pc = s.pc := rfl
@[simp] theorem State.raise_index (k : ErrorKind) (w : Word) : (s.raise k w).index = s.index := rfl
@[simp] theorem State.raise_timers (k : ErrorKind) (w : Word) : (s.raise k w).timers = s.timers := rfl
@[simp] theorem State.raise_display (k : ErrorKind) (w : Word) : (s.raise k w).display = s.display := rfl
@[simp] theorem State.raise_isExtended (k : ErrorKind) (w : Word) : (s.raise k w).isExtended = s.isExtended := rfl
@[simp] theorem State.raise_isSuper (k : ErrorKind) (w : Word) : (s.raise k w).isSuper = s.isSuper := rfl
@[simp] theorem State.raise_wrapPolicy (k : ErrorKind) (w : Word) : (s.raise k w).wrapPolicy = s.wrapPolicy := rfl
@[simp] theorem State.raise_runState (k : ErrorKind) (w : Word) : (s.raise k w).runState = .halted := rfl
@[simp] theorem State.raise_keyDest (k : ErrorKind) (w : Word) : (s.raise k w).keyDest = s.keyDest := rfl
@[simp] theorem State.raise_errorKind (k : ErrorKind) (w : Word) : (s.raise k w).errorKind = k := rfl
@[simp] theorem State.raise_faultPc (k : ErrorKind) (w : Word) : (s.raise k w).faultPc = s.pc := rfl
@[simp] theorem State.raise_faultOpcode (k : ErrorKind) (w : Word) : (s.raise k w).faultOpcode = w := rfl
@[simp] theorem State.raise_events (k : ErrorKind) (w : Word) : (s.raise k w).events = s.events := rfl
@[simp] theorem State.raise_keyDown (k : ErrorKind) (w : Word) : (s.raise k w).keyDown = s.keyDown := rfl
@[simp] theorem State.raise_schedule (k : ErrorKind) (w : Word) : (s.raise k w).schedule = s.schedule := rfl
@[simp] theorem State.raise_draws (k : ErrorKind) (w : Word) : (s.raise k w).draws = s.draws := rfl
@[simp] theorem State.raise_getReg (k : ErrorKind) (w : Word) (z : Nibble) : (s.raise k w).getReg z = s.getReg z := rfl
@[simp] theorem State.raise_readMem (k : ErrorKind) (w : Word) (i : Nat) : (s.raise k w).readMem i = s.readMem i := rfl
@[simp] theorem State.raise_delay (k : ErrorKind) (w : Word) : (s.raise k w).delay = s.delay := rfl
@[simp] theorem State.raise_sound (k : ErrorKind) (w : Word) : (s.raise k w).sound = s.sound := rfl
@[simp] theorem State.raise_width (k : ErrorKind) (w : Word) : (s.raise k w).width = s.width := rfl
@[simp] theorem State.raise_height (k : ErrorKind) (w : Word) : (s.raise k w).height = s.height := rfl
@[simp] theorem State.raise_pixel (k : ErrorKind) (w : Word) (X Y : Nat) : (s.raise k w).pixel X Y = s.pixel X Y := rfl

end Sys2Proof.Machine
end

