-- ==== Sys2Proof/Laws/Store.lean ====
section
/-! SUPPORT. The laws of the sparse store: a read after a write, and that a write keeps the canonical form; then the same of
memory and display, and what a block of byte writes leaves at every address. -/

namespace Sys2Proof.Machine

variable {dflt : Nat → Byte} {m : Store} {a a' : Nat} {b : Byte}

theorem Store.read_drop : Store.read dflt (Store.drop a m) a' = if a' = a then dflt a else Store.read dflt m a' := by
  induction m with
  | nil => simp only [Store.drop, List.filter_nil, Store.read]; split <;> simp_all
  | cons cell rest ih =>
    obtain ⟨k, v⟩ := cell
    by_cases hk : k = a
    · subst hk
      have : Store.drop k ((k, v) :: rest) = Store.drop k rest := by simp [Store.drop]
      rw [this, ih]
      by_cases h : a' = k
      · simp [h]
      · simp [h, Store.read, Ne.symm h]
    · have : Store.drop a ((k, v) :: rest) = (k, v) :: Store.drop a rest := by simp [Store.drop, hk]
      rw [this]
      simp only [Store.read, ih]
      by_cases h : k = a'
      · subst h; simp [hk]
      · simp [h]

theorem Store.not_mem_drop : ∀ cell ∈ Store.drop a m, cell.1 ≠ a := by
  intro cell h
  simpa [Store.drop] using (List.mem_filter.mp h).2

theorem Store.read_place (h : ∀ cell ∈ m, cell.1 ≠ a) :
    Store.read dflt (Store.place a b m) a' = if a' = a then b else Store.read dflt m a' := by
  induction m with
  | nil =>
    by_cases h : a' = a
    · simp [Store.place, Store.read, h]
    · simp [Store.place, Store.read, h, Ne.symm h]
  | cons cell rest ih =>
    obtain ⟨k, v⟩ := cell
    have hk : k ≠ a := h (k, v) (by simp)
    have ih := ih (fun c hc => h c (by simp [hc]))
    simp only [Store.place]
    split
    · by_cases h' : a' = a
      · simp [Store.read, h']
      · simp [Store.read, h', Ne.symm h']
    · simp only [Store.read, ih]
      by_cases h' : k = a'
      · subst h'; simp [hk]
      · simp [h']

/-- A read after a write: the value written at the address, the old value elsewhere. It holds of every store. -/
theorem Store.read_write : Store.read dflt (Store.write dflt m a b) a' = if a' = a then b else Store.read dflt m a' := by
  unfold Store.write
  split
  · rename_i h; rw [Store.read_drop, h]
  · rw [Store.read_place Store.not_mem_drop, Store.read_drop]
    split <;> rfl

theorem Store.mem_place {cell : Host.Cell} : cell ∈ Store.place a b m ↔ cell = (a, b) ∨ cell ∈ m := by
  induction m with
  | nil => simp [Store.place]
  | cons head rest ih =>
    obtain ⟨k, v⟩ := head
    simp only [Store.place]
    split
    · simp
    · simp only [List.mem_cons, ih]; tauto

theorem Store.mem_drop {cell : Host.Cell} : cell ∈ Store.drop a m ↔ cell ∈ m ∧ cell.1 ≠ a := by
  simp [Store.drop]

theorem Store.mem_write {cell : Host.Cell} (h : cell ∈ Store.write dflt m a b) :
    (cell = (a, b) ∧ b ≠ dflt a) ∨ (cell ∈ m ∧ cell.1 ≠ a) := by
  unfold Store.write at h
  split at h
  · exact .inr (Store.mem_drop.mp h)
  · rcases Store.mem_place.mp h with h | h
    · exact .inl ⟨h, ‹_›⟩
    · exact .inr (Store.mem_drop.mp h)

theorem Store.rising_place (hm : (m.map Prod.fst).Pairwise (· < ·)) (h : ∀ cell ∈ m, cell.1 ≠ a) :
    ((Store.place a b m).map Prod.fst).Pairwise (· < ·) := by
  induction m with
  | nil => simp [Store.place]
  | cons head rest ih =>
    obtain ⟨k, v⟩ := head
    simp only [List.map_cons, List.pairwise_cons, List.mem_map, forall_exists_index, and_imp,
      forall_apply_eq_imp_iff₂] at hm
    have hk : k ≠ a := h (k, v) (by simp)
    have ih := ih hm.2 (fun c hc => h c (by simp [hc]))
    simp only [Store.place]
    split
    · rename_i hlt
      simp only [List.map_cons, List.pairwise_cons, List.mem_cons, List.mem_map]
      refine ⟨?_, ?_, hm.2⟩
      · rintro x (rfl | ⟨c, hc, rfl⟩)
        · exact hlt
        · exact Nat.lt_trans hlt (hm.1 c hc)
      · rintro x ⟨c, hc, rfl⟩; exact hm.1 c hc
    · rename_i hge
      simp only [List.map_cons, List.pairwise_cons, List.mem_map]
      refine ⟨?_, ih⟩
      rintro x ⟨c, hc, rfl⟩
      rcases Store.mem_place.mp hc with rfl | hc
      · show k < a; omega
      · exact hm.1 c hc

/-- A write in range keeps the canonical form. -/
theorem Store.wf_write {size : Nat} (hm : Store.wf dflt size m) (ha : a < size) : Store.wf dflt size (Store.write dflt m a b) := by
  have hdrop : ((Store.drop a m).map Prod.fst).Pairwise (· < ·) :=
    hm.1.sublist ((List.filter_sublist).map Prod.fst)
  refine ⟨?_, ?_⟩
  · unfold Store.write
    split
    · exact hdrop
    · exact Store.rising_place hdrop Store.not_mem_drop
  · intro cell hc
    rcases Store.mem_write hc with ⟨rfl, hb⟩ | ⟨hc, -⟩
    · exact ⟨ha, hb⟩
    · exact hm.2 cell hc

theorem Store.wf_nil {size : Nat} : Store.wf dflt size [] := by simp [Store.wf]

/-- A read of a canonical store below its size whose entries all satisfy `p` satisfies `p` or is the default. -/
theorem Store.read_cases (p : Byte → Prop) (h : ∀ cell ∈ m, p cell.2) : p (Store.read dflt m a) ∨ Store.read dflt m a = dflt a := by
  induction m with
  | nil => exact .inr rfl
  | cons head rest ih =>
    obtain ⟨k, v⟩ := head
    simp only [Store.read]
    split
    · exact .inl (h (k, v) (by simp))
    · exact ih (fun c hc => h c (by simp [hc]))

/-! ### Memory -/

/-- Reset memory lists nothing and is canonical. -/
theorem Memory.wf_reset : Memory.wf State.reset.mem := Store.wf_nil

/-- `writeMem` in range keeps the canonical form. -/
theorem Memory.wf_writeMem {s : State} (h : Memory.wf s.mem) (ha : a < Config.memSize) : Memory.wf (s.writeMem a b).mem :=
  Store.wf_write h ha

/-- `MemWrite` then `MemRead`: the written byte at its address, every other byte as before. -/
theorem State.readMem_writeMem (s : State) : (s.writeMem a b).readMem a' = if a' = a then b else s.readMem a' := Store.read_write

/-- What a block of byte writes leaves at every address: the block's bytes in ascending order, the rest as before. -/
theorem read_storeBytes (bs : List Byte) :
    Store.read resetByte (storeBytes m a bs) a' =
      if h : a ≤ a' ∧ a' < a + bs.length then bs[a' - a]'(by omega) else Store.read resetByte m a' := by
  induction bs generalizing m a with
  | nil => simp only [storeBytes, List.length_nil]; split <;> [omega; rfl]
  | cons b bs ih =>
    simp only [storeBytes, ih, List.length_cons, Store.read_write]
    by_cases h1 : a + 1 ≤ a' ∧ a' < a + 1 + bs.length
    · have h2 : a ≤ a' ∧ a' < a + (bs.length + 1) := by omega
      rw [dif_pos h1, dif_pos h2]
      have : a' - a = (a' - (a + 1)) + 1 := by omega
      simp [this]
    · rw [dif_neg h1]
      by_cases h3 : a' = a
      · subst h3; simp
      · have h2 : ¬(a ≤ a' ∧ a' < a + (bs.length + 1)) := by omega
        rw [dif_neg h2, if_neg h3]

/-- A block of byte writes in range keeps the canonical form. -/
theorem Memory.wf_storeBytes (bs : List Byte) (hm : Memory.wf m) (h : a + bs.length ≤ Config.memSize) :
    Memory.wf (storeBytes m a bs) := by
  induction bs generalizing m a with
  | nil => exact hm
  | cons b bs ih =>
    simp only [List.length_cons] at h
    exact ih (Store.wf_write hm (by omega)) (by omega)

/-! ### Display -/

/-- The byte at an offset of a canonical buffer is 0x00 or 0xFF. -/
theorem Display.read_cases {size : Nat} {d : Store} (h : Display.wf size d) (o : Nat) :
    Display.read d o = 0x00#8 ∨ Display.read d o = 0xFF#8 :=
  (Store.read_cases (· = 0xFF#8) h.2).symm

end Sys2Proof.Machine
end

