-- ==== Sys2Proof/Laws/Ops.lean ====
section
/-! SUPPORT. What each shared operation does, said once: registers, the return stack, the timer pair, the register block, the
sprite pixels. -/

namespace Sys2Proof.Machine

variable (s : State)

/-! ### Registers -/

theorem State.getReg_setReg (x z : Nibble) (v : Byte) : (s.setReg x v).getReg z = if z = x then v else s.getReg z := by
  simp only [State.getReg, State.setReg, Vector.getElem_set]
  by_cases h : z = x
  · simp [h]
  · have : x.toNat ≠ z.toNat := fun h' => h (BitVec.eq_of_toNat_eq h'.symm)
    simp [h, this]

@[simp] theorem State.getReg_setReg_self (x : Nibble) (v : Byte) : (s.setReg x v).getReg x = v := by
  simp [State.getReg_setReg]

@[simp] theorem State.getReg_setReg_of_ne {x z : Nibble} (h : z ≠ x) (v : Byte) : (s.setReg x v).getReg z = s.getReg z := by
  simp [State.getReg_setReg, h]

/-- `VF` ends as the flag, `V[x]` as the result unless it is `VF`, every other register as before (R132). -/
theorem State.getReg_setResultAndFlag (x z : Nibble) (r f : Byte) :
    (s.setResultAndFlag x r f).getReg z = if z = VF then f else if z = x then r else s.getReg z := by
  simp only [State.setResultAndFlag, State.getReg_setReg]

/-! ### The return stack -/

/-- Everything a push can do. -/
theorem State.push?_cases (a : Word) :
    (s.sp.val = 16 ∧ s.push? a = none) ∨
    ∃ t, s.push? a = some t ∧ s.sp.val < 16 ∧ t.sp.val = s.sp.val + 1 ∧
      (∀ i : Fin 16, t.stack[i.val] = if i.val = s.sp.val then a else s.stack[i.val]) ∧
      t = { s with stack := t.stack, sp := t.sp } := by
  unfold State.push?
  split
  · rename_i h
    refine .inr ⟨_, rfl, h, rfl, ?_, rfl⟩
    intro i
    simp only [Vector.getElem_set, eq_comm]
  · exact .inl ⟨by omega, rfl⟩

/-- Everything a pop can do. -/
theorem State.pop?_cases :
    (s.sp.val = 0 ∧ s.pop? = none) ∨
    ∃ a t, s.pop? = some (a, t) ∧ 0 < s.sp.val ∧ t.sp.val = s.sp.val - 1 ∧
      (∀ i : Fin 16, i.val = s.sp.val - 1 → a = s.stack[i.val]) ∧ t = { s with sp := t.sp } := by
  unfold State.pop?
  split
  · rename_i h
    refine .inr ⟨_, _, rfl, h, rfl, ?_, rfl⟩
    intro i hi
    simp only [hi]
  · exact .inl ⟨by omega, rfl⟩

/-! ### The timer pair -/

/-- After a transaction the pair holds what the function gave, both fields at once (R214). -/
@[simp] theorem State.delay_atomicPairUpdate (f : Byte → Byte → Byte × Byte) :
    (s.atomicPairUpdate f).delay = (f s.delay s.sound).1 := slice_append_high _ _

@[simp] theorem State.sound_atomicPairUpdate (f : Byte → Byte → Byte × Byte) :
    (s.atomicPairUpdate f).sound = (f s.delay s.sound).2 := slice_append_low _ _

/-- Two pairs with equal fields are equal. -/
theorem timers_ext {v w : Word} (h1 : v.extractLsb' 8 8 = w.extractLsb' 8 8) (h2 : v.extractLsb' 0 8 = w.extractLsb' 0 8) :
    v = w := by
  have key : ∀ u : Word, u.extractLsb' 8 8 ++ u.extractLsb' 0 8 = u := fun u => append_slices (a := 8) (b := 8) u
  rw [← key v, ← key w, h1, h2]

/-! ### The register block -/

theorem State.length_regBlock (x : Nibble) : (s.regBlock x).length = x.toNat + 1 := by
  have := x.isLt
  simp only [State.regBlock, List.length_take, Vector.length_toList]
  omega

theorem State.getElem_regBlock (x : Nibble) (i : Nat) (h : i < (s.regBlock x).length) :
    (s.regBlock x)[i] = s.getReg (BitVec.ofNat 4 i) := by
  have hx := x.isLt
  rw [State.length_regBlock] at h
  have hi : i % 2 ^ 4 = i := Nat.mod_eq_of_lt (by omega)
  simp only [State.regBlock, State.getReg, BitVec.toNat_ofNat, hi, List.getElem_take, Vector.getElem_toList]

/-- `V[z]` after the register load of `LDR Vx`. -/
theorem State.getReg_loadedRegs (x z : Nibble) :
    (s.loadedRegs x)[z.toNat]'z.isLt = if z.toNat ≤ x.toNat then s.readMem (s.indexed z.toNat) else s.getReg z := by
  simp only [State.loadedRegs, Vector.getElem_ofFn, State.getReg]

/-! ### Sprites -/

theorem State.width_pos : 0 < s.width := by unfold State.width; split <;> decide

theorem State.height_pos : 0 < s.height := by unfold State.height; split <;> decide

theorem spriteShape_bounds (b : Bool) (n : Nibble) :
    (spriteShape b n).1 ≤ 16 ∧ 1 ≤ (spriteShape b n).2 ∧ (spriteShape b n).2 ≤ 2 := by
  have := n.isLt
  unfold spriteShape
  split
  · cases b <;> simp
  · simp only; omega

/-- A visible column is less than `W`. -/
theorem State.spriteColumn_lt {vx : Byte} {c X : Nat} (h : s.spriteColumn vx c = some X) : X < s.width := by
  unfold State.spriteColumn at h
  split at h
  · cases h; exact Nat.mod_lt _ s.width_pos
  · split at h
    · cases h; assumption
    · cases h

/-- A pixel offset determines the pixel. -/
theorem State.pixelOffset_inj {X Y X' Y' : Nat} (hX : X < s.width) (hX' : X' < s.width)
    (h : s.pixelOffset X Y = s.pixelOffset X' Y') : X = X' ∧ Y = Y' := by
  unfold State.pixelOffset at h
  have hw := s.width_pos
  have h1 : (Y * s.width + X) / s.width = Y := by
    rw [Nat.mul_comm, Nat.mul_add_div hw, Nat.div_eq_of_lt hX, Nat.add_zero]
  have h2 : (Y' * s.width + X') / s.width = Y' := by
    rw [Nat.mul_comm, Nat.mul_add_div hw, Nat.div_eq_of_lt hX', Nat.add_zero]
  have hY : Y = Y' := by rw [← h1, ← h2, h]
  subst hY
  exact ⟨by omega, rfl⟩

/-- A pixel of the geometry lies in the buffer. -/
theorem State.pixelOffset_lt {X Y : Nat} (hX : X < s.width) (hY : Y < s.height) : s.pixelOffset X Y < s.width * s.height := by
  unfold State.pixelOffset
  have : Y * s.width + s.width ≤ s.height * s.width := by
    rw [← Nat.succ_mul]; exact Nat.mul_le_mul_right _ hY
  rw [Nat.mul_comm s.width]
  omega

/-- The offsets a sprite toggles: exactly those of the pixels under its visible 1 bits. -/
theorem State.mem_spriteOffsets {vx vy : Byte} {shape : Nat × Nat} {o : Nat} :
    o ∈ s.spriteOffsets vx vy shape ↔
      ∃ r c X, r < shape.1 ∧ c < 8 * shape.2 ∧ s.spriteBit shape.2 r c = true ∧ s.spriteColumn vx c = some X ∧
        o = s.pixelOffset X (s.spriteRow vy r) := by
  simp only [State.spriteOffsets, List.mem_flatMap, List.mem_filterMap, List.mem_range]
  constructor
  · rintro ⟨r, hr, c, hc, h⟩
    split at h
    · rename_i hb
      rw [Option.map_eq_some_iff] at h
      obtain ⟨X, hX, rfl⟩ := h
      exact ⟨r, c, X, hr, hc, hb, hX, rfl⟩
    · cases h
  · rintro ⟨r, c, X, hr, hc, hb, hX, rfl⟩
    exact ⟨r, hr, c, hc, by simp [hb, hX]⟩

/-- The start column and the sprite column are determined by the display column, within 16 columns. -/
theorem State.spriteColumn_inj {vx : Byte} {c c' X : Nat} (hc : c < 16) (hc' : c' < 16)
    (h : s.spriteColumn vx c = some X) (h' : s.spriteColumn vx c' = some X) : c = c' := by
  have hw : 64 ≤ s.width := by unfold State.width; split <;> decide
  unfold State.spriteColumn at h h'
  split at h <;> rename_i hp
  · simp only [hp, ↓reduceIte, Option.some.injEq] at h'
    simp only [Option.some.injEq] at h
    rw [← h'] at h
    have : vx.toNat + c ≡ vx.toNat + c' [MOD s.width] := h
    have := Nat.ModEq.add_left_cancel' _ this
    have := Nat.ModEq.eq_of_lt_of_lt this (by omega) (by omega)
    exact this
  · simp only [hp, Bool.false_eq_true, ↓reduceIte] at h'
    split at h <;> split at h' <;> simp_all
    omega

theorem State.spriteRow_inj {vy : Byte} {r r' : Nat} (hr : r < 16) (hr' : r' < 16)
    (h : s.spriteRow vy r = s.spriteRow vy r') : r = r' := by
  have hh : 32 ≤ s.height := by unfold State.height; split <;> decide
  have : vy.toNat + r ≡ vy.toNat + r' [MOD s.height] := h
  have := Nat.ModEq.add_left_cancel' _ this
  exact Nat.ModEq.eq_of_lt_of_lt this (by omega) (by omega)

/-- "The pixels of one `DRW` are distinct" (R166). -/
theorem State.spriteOffsets_nodup (vx vy : Byte) {shape : Nat × Nat} (h1 : shape.1 ≤ 16) (h2 : shape.2 ≤ 2) :
    (s.spriteOffsets vx vy shape).Nodup := by
  unfold State.spriteOffsets
  rw [List.nodup_flatMap]
  constructor
  · intro r _
    refine List.pairwise_filterMap.mpr (List.nodup_range.imp_of_mem ?_)
    intro c c' hc hc' hne o ho o' ho' heq
    rw [List.mem_range] at hc hc'
    split at ho <;> [skip; cases ho]
    split at ho' <;> [skip; cases ho']
    obtain ⟨X, hX, rfl⟩ := Option.map_eq_some_iff.mp ho
    obtain ⟨X', hX', rfl⟩ := Option.map_eq_some_iff.mp ho'
    obtain ⟨rfl, -⟩ := s.pixelOffset_inj (s.spriteColumn_lt hX) (s.spriteColumn_lt hX') heq
    exact hne (s.spriteColumn_inj (by omega) (by omega) hX hX')
  · refine List.nodup_range.imp_of_mem ?_
    intro r r' hr hr' hne o ho ho'
    rw [List.mem_range] at hr hr'
    obtain ⟨c, -, ho⟩ := List.mem_filterMap.mp ho
    obtain ⟨c', -, ho'⟩ := List.mem_filterMap.mp ho'
    split at ho <;> [skip; cases ho]
    split at ho' <;> [skip; cases ho']
    obtain ⟨X, hX, rfl⟩ := Option.map_eq_some_iff.mp ho
    obtain ⟨X', hX', heq⟩ := Option.map_eq_some_iff.mp ho'
    obtain ⟨-, hrow⟩ := s.pixelOffset_inj (s.spriteColumn_lt hX') (s.spriteColumn_lt hX) heq
    exact hne (s.spriteRow_inj (by omega) (by omega) hrow.symm)

end Sys2Proof.Machine
end

