-- ==== Sys2Proof/Laws/Display.lean ====
section
/-! SUPPORT. What the sprite engine's toggling does to the display buffer, said once (44_display R163, R166). -/

namespace Sys2Proof.Machine

variable {d : Store} {os : List Nat} {o : Nat} {size : Nat}

theorem read_togglePixel (o' : Nat) :
    Display.read (togglePixel d o) o' = if o' = o then Display.read d o ^^^ 0xFF#8 else Display.read d o' :=
  Store.read_write

/-- Every pixel under distinct offsets is toggled once, every other pixel is as before. -/
theorem read_toggleAll (h : os.Nodup) (o' : Nat) :
    Display.read (toggleAll d os).1 o' = if o' ∈ os then Display.read d o' ^^^ 0xFF#8 else Display.read d o' := by
  induction os generalizing d with
  | nil => simp [toggleAll]
  | cons o os ih =>
    obtain ⟨h1, h2⟩ := List.nodup_cons.mp h
    simp only [toggleAll, ih h2, read_togglePixel, List.mem_cons]
    by_cases hm : o' ∈ os
    · have : o' ≠ o := fun e => h1 (e ▸ hm)
      simp [hm, this]
    · by_cases he : o' = o <;> simp [hm, he, h1]

/-- The collision flag: some pixel under the offsets was set before (R166). -/
theorem toggleAll_collision (h : os.Nodup) : (toggleAll d os).2 = true ↔ ∃ o ∈ os, Display.read d o = 0xFF#8 := by
  induction os generalizing d with
  | nil => simp [toggleAll]
  | cons o os ih =>
    obtain ⟨h1, h2⟩ := List.nodup_cons.mp h
    simp only [toggleAll, Bool.or_eq_true, beq_iff_eq, ih h2, read_togglePixel, List.mem_cons, exists_eq_or_imp]
    apply or_congr_right
    apply exists_congr
    intro o'
    apply and_congr_right
    intro hm
    have : o' ≠ o := fun e => h1 (e ▸ hm)
    simp [this]

/-- A toggle in range keeps the canonical form and the two pixel values. -/
theorem wf_togglePixel (h : Display.wf size d) (ho : o < size) : Display.wf size (togglePixel d o) := by
  refine ⟨Store.wf_write h.1 ho, ?_⟩
  intro cell hc
  rcases Store.mem_write hc with ⟨rfl, hb⟩ | ⟨hc, -⟩
  · rcases Display.read_cases h o with h0 | h0
    · simp [h0]
    · exact absurd (by simp [h0, unsetPixel]) hb
  · exact h.2 cell hc

/-- Toggling offsets in range keeps the canonical form and the two pixel values (R25 (c)). -/
theorem wf_toggleAll (h : Display.wf size d) (hos : ∀ o ∈ os, o < size) : Display.wf size (toggleAll d os).1 := by
  induction os generalizing d with
  | nil => exact h
  | cons o os ih =>
    exact ih (wf_togglePixel h (hos o (by simp))) (fun o' ho' => hos o' (by simp [ho']))

/-- The clear buffer is canonical. -/
theorem Display.wf_clear : Display.wf size [] := ⟨Store.wf_nil, by simp⟩

/-- Every offset a sprite toggles lies in the buffer. -/
theorem State.spriteOffsets_lt (s : State) {vx vy : Byte} {shape : Nat × Nat} (ho : o ∈ s.spriteOffsets vx vy shape) :
    o < s.width * s.height := by
  obtain ⟨r, c, X, -, -, -, hX, rfl⟩ := s.mem_spriteOffsets.mp ho
  exact s.pixelOffset_lt (s.spriteColumn_lt hX) (Nat.mod_lt _ s.height_pos)

end Sys2Proof.Machine
end

