-- ==== Sys2Proof/Laws/Safety.lean ====
section
/-! SUPPORT. The terms of Safety.lean beside the operations the meanings call: the range checks, the fault entry, and the
pixels a sprite covers. -/

namespace Sys2Proof.Machine

variable (s : State)

@[simp] theorem addressExists_iff {hi : Nat} : addressExists hi = true ↔ hi ≤ 0xFFF := by simp [addressExists]

/-- `raise` changes the latch and the run state, nothing else (R206). -/
theorem takesFault_raise (kind : ErrorKind) (w : Word) : TakesFault kind w s (s.raise kind w) :=
  ⟨fun _ => rfl, fun _ _ => rfl, rfl⟩

/-- Equal memories read alike. -/
theorem sameMemory_of_mem_eq {s t : State} (h : t.mem = s.mem) : SameMemory s t := fun a => by
  unfold State.readMem; rw [h]

/-- Equal register files read alike. -/
theorem sameRegsExcept_of_regs_eq {s t : State} (w : List Nibble) (h : t.regs = s.regs) : SameRegsExcept w s t := fun z _ => by
  unfold State.getReg; simp only [h]

theorem onlyPc_setPc (a : Word) : OnlyPc s (s.setPc a) := ⟨fun _ => rfl, fun _ _ => rfl, rfl⟩

theorem onlyRegsAndPc_setReg (x : Nibble) (v : Byte) : OnlyRegsAndPc [x] s (s.setReg x v).advance := by
  refine ⟨fun _ => rfl, fun z hz => ?_, rfl⟩
  rw [List.mem_singleton] at hz
  exact (State.getReg_setReg s x z v).trans (if_neg hz)

theorem onlyRegsAndPc_setResultAndFlag (x : Nibble) (r f : Byte) :
    OnlyRegsAndPc [x, VF] s (s.setResultAndFlag x r f).advance := by
  refine ⟨fun _ => rfl, fun z hz => ?_, rfl⟩
  simp only [List.mem_cons, List.not_mem_nil, or_false, not_or] at hz
  exact (State.getReg_setResultAndFlag s x z r f).trans (by rw [if_neg hz.2, if_neg hz.1])

theorem onlyIndexAndPc_setIndex (v : Word) : OnlyIndexAndPc s (s.setIndex v).advance :=
  ⟨fun _ => rfl, fun _ _ => rfl, rfl⟩

theorem onlyTimersAndPc_atomicPairUpdate (f : Byte → Byte → Byte × Byte) :
    OnlyTimersAndPc s (s.atomicPairUpdate f).advance := ⟨fun _ => rfl, fun _ _ => rfl, rfl⟩

/-! ### Sprites -/

theorem spriteShape_eq (n : Nibble) : spriteShape s.isSuper n = (spriteRows s n, spriteRowBytes s n) := by
  unfold spriteShape spriteRows spriteRowBytes
  by_cases h : n = 0x0#4
  · cases hs : s.isSuper <;> simp [h]
  · simp [h]

/-- The range check of `DRW`. -/
theorem spriteFits_iff (n : Nibble) :
    SpriteFits s n ↔ s.spriteInRange (spriteRows s n * spriteRowBytes s n) = true := by
  unfold SpriteFits State.spriteInRange State.indexed
  by_cases h : spriteRows s n * spriteRowBytes s n = 0
  · simp [h]
  · rw [if_neg h, addressExists_iff]; omega

/-- The offsets `DRW` toggles are those of the pixels the sprite covers. -/
theorem pixelOffset_mem_spriteOffsets {vx vy : Byte} {rows bpr X Y : Nat} (hX : X < s.width) :
    s.pixelOffset X Y ∈ s.spriteOffsets vx vy (rows, bpr) ↔ SpriteCovers s vx vy rows bpr X Y := by
  rw [State.mem_spriteOffsets]
  constructor
  · rintro ⟨r, c, X', hr, hc, hb, hX', ho⟩
    obtain ⟨rfl, rfl⟩ := s.pixelOffset_inj hX (s.spriteColumn_lt hX') ho
    refine ⟨r, c, hr, hc, hb, rfl, ?_⟩
    unfold State.spriteColumn at hX'
    split_ifs at hX' <;> simp_all
  · rintro ⟨r, c, hr, hc, hb, rfl, hXe⟩
    refine ⟨r, c, X, hr, hc, hb, ?_, rfl⟩
    unfold State.spriteColumn
    split_ifs at hXe ⊢ <;> simp_all

/-- The pixels of one `DRW` are distinct (R166). -/
theorem spriteOffsets_shape_nodup (vx vy : Byte) (n : Nibble) :
    (s.spriteOffsets vx vy (spriteRows s n, spriteRowBytes s n)).Nodup := by
  have h := spriteShape_bounds s.isSuper n
  rw [spriteShape_eq] at h
  exact s.spriteOffsets_nodup vx vy h.1 h.2.2

end Sys2Proof.Machine
end

