-- ==== Sys2Proof/Laws/Meanings.lean ====
section
/-! SUPPORT. Everything the six instructions that can fault do, said once each: the next state as one record update over plain
variables, or the fault. Every other instruction's next state is its meaning unfolded. -/

namespace Sys2Proof.Machine

variable (s : State)

theorem execRet_cases :
    (s.sp.val = 0 ∧ exec .ret s = .next (s.raise .stackUnderflow 0x00EE#16)) ∨
    ∃ (a : Word) (sp : Fin 17), exec .ret s = .next { s with sp := sp, pc := a } ∧ s.sp.val = sp.val + 1 ∧
      ∀ i : Fin 16, i.val = sp.val → a = s.stack[i.val] := by
  rcases s.pop?_cases with ⟨h0, h⟩ | ⟨a, t, h, h1, h2, h3, ht⟩
  · exact .inl ⟨h0, by simp only [exec, execRet, h, encode]⟩
  · refine .inr ⟨a, t.sp, ?_, by omega, fun i hi => h3 i (by omega)⟩
    simp only [exec, execRet, h]
    rw [ht]; rfl

theorem execCall_cases (nnn : Addr12) :
    (s.sp.val = 16 ∧ exec (.call nnn) s = .next (s.raise .stackOverflow (formatAddr 0x2#4 nnn))) ∨
    ∃ (k : Vector Word 16) (sp : Fin 17),
      exec (.call nnn) s = .next { s with stack := k, sp := sp, pc := nnn.setWidth 16 } ∧ s.sp.val < 16 ∧
      sp.val = s.sp.val + 1 ∧ ∀ i : Fin 16, k[i.val] = if i.val = s.sp.val then s.pc + 2 else s.stack[i.val] := by
  rcases s.push?_cases (s.pc + 2) with ⟨h0, h⟩ | ⟨t, h, h1, h2, h3, ht⟩
  · exact .inl ⟨h0, by simp only [exec, execCall, h, encode]⟩
  · refine .inr ⟨t.stack, t.sp, ?_, h1, h2, h3⟩
    simp only [exec, execCall, h]
    rw [ht]; rfl

theorem execStd_cases (x : Nibble) :
    (0xFFF < s.indexed 2 ∧ exec (.std x) s = .next (s.raise .addressOutOfRange (formatXI 0xF#4 x 0x33#8))) ∨
    ∃ m, s.indexed 2 ≤ 0xFFF ∧ m = storeBytes s.mem (s.indexed 0) (bcdDigits (s.getReg x)) ∧
      exec (.std x) s = .next { s with mem := m, pc := s.pc + 2 } := by
  simp only [exec, execStd]
  split <;> rename_i h <;> rw [addressExists_iff] at h
  · exact .inr ⟨_, h, rfl, rfl⟩
  · exact .inl ⟨by omega, rfl⟩

theorem execStr_cases (x : Nibble) :
    (0xFFF < s.indexed x.toNat ∧ exec (.str x) s = .next (s.raise .addressOutOfRange (formatXI 0xF#4 x 0x55#8))) ∨
    ∃ m, s.indexed x.toNat ≤ 0xFFF ∧ m = storeBytes s.mem (s.indexed 0) (s.regBlock x) ∧
      exec (.str x) s = .next { s with mem := m, index := s.indexAfterBlock x, pc := s.pc + 2 } := by
  simp only [exec, execStr]
  split <;> rename_i h <;> rw [addressExists_iff] at h
  · exact .inr ⟨_, h, rfl, rfl⟩
  · exact .inl ⟨by omega, rfl⟩

theorem execLdr_cases (x : Nibble) :
    (0xFFF < s.indexed x.toNat ∧ exec (.ldr x) s = .next (s.raise .addressOutOfRange (formatXI 0xF#4 x 0x65#8))) ∨
    ∃ r, s.indexed x.toNat ≤ 0xFFF ∧
      (∀ z : Nibble, r[z.toNat]'z.isLt = if z.toNat ≤ x.toNat then s.readMem (s.indexed z.toNat) else s.getReg z) ∧
      exec (.ldr x) s = .next { s with regs := r, index := s.indexAfterBlock x, pc := s.pc + 2 } := by
  simp only [exec, execLdr]
  split <;> rename_i h <;> rw [addressExists_iff] at h
  · refine .inr ⟨s.loadedRegs x, h, s.getReg_loadedRegs x, ?_⟩
    generalize s.loadedRegs x = r
    rfl
  · exact .inl ⟨by omega, rfl⟩

theorem execDrw_cases (x y n : Nibble) :
    (¬SpriteFits s n ∧ exec (.drw x y n) s = .next (s.raise .addressOutOfRange (formatXY 0xD#4 x y n))) ∨
    ∃ d f, SpriteFits s n ∧
      toggleAll s.display (s.spriteOffsets (s.getReg x) (s.getReg y) (spriteRows s n, spriteRowBytes s n)) = (d, f) ∧
      exec (.drw x y n) s = .next { s with
        display := d
        regs := (s.setReg VF (flagByte f)).regs
        events := s.events ++ [.displayUpdate d s.width s.height]
        pc := s.pc + 2 } := by
  simp only [exec, execDrw, spriteShape_eq]
  split <;> rename_i h <;> rw [← spriteFits_iff] at h
  · refine .inr ⟨_, _, h, rfl, ?_⟩
    generalize toggleAll s.display _ = r
    rfl
  · exact .inl ⟨h, rfl⟩

/-- No instruction touches the moves to come. -/
theorem exec_schedule {i : Instr} {s t : State} (h : exec i s = .next t) : t.schedule = s.schedule := by
  cases i
  case ret => rcases execRet_cases s with ⟨-, h'⟩ | ⟨a, sp, h', -⟩ <;> rw [h'] at h <;> cases h <;> rfl
  case call nnn => rcases execCall_cases s nnn with ⟨-, h'⟩ | ⟨k, sp, h', -⟩ <;> rw [h'] at h <;> cases h <;> rfl
  case std x => rcases execStd_cases s x with ⟨-, h'⟩ | ⟨m, -, -, h'⟩ <;> rw [h'] at h <;> cases h <;> rfl
  case str x => rcases execStr_cases s x with ⟨-, h'⟩ | ⟨m, -, -, h'⟩ <;> rw [h'] at h <;> cases h <;> rfl
  case ldr x => rcases execLdr_cases s x with ⟨-, h'⟩ | ⟨r, -, -, h'⟩ <;> rw [h'] at h <;> cases h <;> rfl
  case drw x y n => rcases execDrw_cases s x y n with ⟨-, h'⟩ | ⟨d, f, -, -, h'⟩ <;> rw [h'] at h <;> cases h <;> rfl
  all_goals (cases h; rfl)

/-- `I` after a register block, as a number (R144, R145). -/
theorem State.indexAfterBlock_toNat (x : Nibble) :
    (s.indexAfterBlock x).toNat = if s.isSuper then (s.index.toNat + x.toNat + 1) % 65536 else s.index.toNat := by
  have := x.isLt
  unfold State.indexAfterBlock
  split <;> simp [Nat.add_assoc]

/-- What `STR Vx` leaves at the address of `V[z]` (R144). -/
theorem read_regBlock (x z : Nibble) (hz : z.toNat ≤ x.toNat) :
    Store.read resetByte (storeBytes s.mem (s.indexed 0) (s.regBlock x)) (s.indexed z.toNat) = s.getReg z := by
  rw [read_storeBytes, dif_pos (by rw [State.length_regBlock]; simp [State.indexed]; omega), State.getElem_regBlock]
  simp [State.indexed]

end Sys2Proof.Machine
end

