-- ==== Sys2Proof/Laws/Cycle.lean ====
section
/-! SUPPORT. What a step can do, said once: the tick, the core's move, and the five kinds of move a step that
answers a next state has made. -/

namespace Sys2Proof.Machine

variable {s t u : State}

/-! ### The tick (R212, R213) -/

/-- A countdown is the subtraction that stops at zero. -/
theorem countDown_toNat : ∀ v : Byte, (countDown v).toNat = v.toNat - 1 := by decide

/-- `State.tick` as one record update. -/
theorem State.tick_eq (s : State) :
    s.tick = { s with
      timers := countDown s.delay ++ countDown s.sound
      events := if s.sound = 0x01#8 then s.events ++ [.beep] else s.events } := by
  unfold State.tick
  by_cases h : s.sound = 0x01#8
  · rw [if_pos h, if_pos h]; rfl
  · rw [if_neg h, if_neg h]; rfl

@[simp] theorem State.tick_delay (s : State) : s.tick.delay = countDown s.delay := by
  rw [State.tick_eq]; exact slice_append_high _ _

@[simp] theorem State.tick_sound (s : State) : s.tick.sound = countDown s.sound := by
  rw [State.tick_eq]; exact slice_append_low _ _

@[simp] theorem State.tick_events (s : State) :
    s.tick.events = if s.sound = 0x01#8 then s.events ++ [.beep] else s.events := by rw [State.tick_eq]

@[simp] theorem State.tick_mem (s : State) : s.tick.mem = s.mem := by rw [State.tick_eq]
@[simp] theorem State.tick_regs (s : State) : s.tick.regs = s.regs := by rw [State.tick_eq]
@[simp] theorem State.tick_getReg (s : State) (z : Nibble) : s.tick.getReg z = s.getReg z := by rw [State.tick_eq]; rfl
@[simp] theorem State.tick_readMem (s : State) (a : Nat) : s.tick.readMem a = s.readMem a := by rw [State.tick_eq]; rfl
@[simp] theorem State.tick_pc (s : State) : s.tick.pc = s.pc := by rw [State.tick_eq]
@[simp] theorem State.tick_runState (s : State) : s.tick.runState = s.runState := by rw [State.tick_eq]
@[simp] theorem State.tick_keyDest (s : State) : s.tick.keyDest = s.keyDest := by rw [State.tick_eq]
@[simp] theorem State.tick_schedule (s : State) : s.tick.schedule = s.schedule := by rw [State.tick_eq]

/-- When the Timer Service moves next, the step is its tick (R212, R215). -/
theorem step_of_timerMoves (h : TimerMoves s u) : step s = .next u.tick := by
  rcases h with ⟨h, rfl⟩ | ⟨rest, h, rfl⟩ <;> simp only [step, cycle, h, moveStep]

/-- What stands ready for the tick is the state, but for the moves still to come and the count of draws. -/
theorem eq_of_timerMoves (h : TimerMoves s u) : u = { s with schedule := u.schedule, draws := u.draws } := by
  rcases h with ⟨-, rfl⟩ | ⟨rest, -, rfl⟩ <;> rfl

/-! ### The core's move -/

/-- When the core moves next, the step is its step on the state with the move taken. -/
theorem step_of_coreMoves (h : CoreMoves s u) : step s = coreStep u := by
  obtain ⟨rest, h, rfl⟩ := h
  simp only [step, cycle, h, moveStep]

theorem runState_of_coreMoves (h : CoreMoves s u) : u.runState = s.runState := by
  obtain ⟨rest, -, rfl⟩ := h; rfl

theorem pc_of_coreMoves (h : CoreMoves s u) : u.pc = s.pc := by
  obtain ⟨rest, -, rfl⟩ := h; rfl

theorem readMem_of_coreMoves (h : CoreMoves s u) (a : Nat) : u.readMem a = s.readMem a := by
  obtain ⟨rest, -, rfl⟩ := h; rfl

/-- A running core at a `pc` that cannot be fetched from takes the fetch fault (R81, R204). -/
theorem nextFetchFaults (h : 0xFFE < t.pc.toNat) : NextFetchFaults t := by
  intro hr rest
  refine ⟨{ t with schedule := rest }.raiseGuard, _, ?_,
    takesFault_raise { t with schedule := rest, draws := t.draws + 1 } _ (Config.guardOpcode t.draws)⟩
  rw [step_of_coreMoves ⟨rest, rfl, rfl⟩]
  simp only [coreStep, hr, runInstruction]
  rw [if_pos h]

/-- Everything the core's move can do when it answers a next state (R80, R85, R87). -/
theorem coreStep_cases (h : coreStep s = .next t) :
    (s.runState = .awaitingKey ∧ t = s) ∨
    (s.runState = .running ∧ 0xFFE < s.pc.toNat ∧ t = s.raiseGuard) ∨
    (s.runState = .running ∧ s.pc.toNat ≤ 0xFFE ∧ ∃ e, decode (s.fetch16 s.pc.toNat) = .error e ∧
      t = s.illegal (s.fetch16 s.pc.toNat)) ∨
    (s.runState = .running ∧ s.pc.toNat ≤ 0xFFE ∧ ∃ i, decode (s.fetch16 s.pc.toNat) = .ok i ∧ exec i s = .next t) := by
  unfold coreStep at h
  split at h
  · rename_i hr
    unfold runInstruction at h
    split at h
    · rename_i hp
      injection h with h
      exact .inr (.inl ⟨hr, hp, h.symm⟩)
    · rename_i hp
      have hp : s.pc.toNat ≤ 0xFFE := Nat.not_lt.mp hp
      split at h
      · rename_i i hd
        exact .inr (.inr (.inr ⟨hr, hp, i, hd, h⟩))
      · rename_i e hd
        injection h with h
        exact .inr (.inr (.inl ⟨hr, hp, e, hd, h.symm⟩))
  · rename_i hr
    injection h with h
    exact .inl ⟨hr, h.symm⟩
  · cases h

/-- A key event changes nothing unless the core waits (R217). -/
theorem presentKey_of_not_waiting (h : s.runState ≠ .awaitingKey) (id : Nibble) : s.presentKey id = s := by
  unfold State.presentKey
  split
  · exact absurd ‹_› h
  · rfl
  · rfl

/-- Everything a step can do when it answers a next state: one move of one agent (R8, R215). -/
theorem step_cases (h : step s = .next t) :
    (∃ u, CoreMoves s u ∧ coreStep u = .next t) ∨
    (∃ u, TimerMoves s u ∧ t = u.tick) ∨
    ∃ rest,
      (∃ down, s.schedule = .keyLevels down :: rest ∧ t = { s with schedule := rest, keyDown := down }) ∨
      (∃ id, s.schedule = .keyEvent id :: rest ∧ t = { s with schedule := rest }.presentKey id) ∨
      (∃ image straps, s.schedule = .reset image straps :: rest ∧ image.length ≤ 3584 ∧
        t = { s with schedule := rest }.hostReset image straps) := by
  unfold step cycle at h
  split at h
  · injection h with h
    exact .inr (.inl ⟨_, .inl ⟨‹_›, rfl⟩, h.symm⟩)
  · rename_i m rest hs
    cases m with
    | core => exact .inl ⟨_, ⟨rest, hs, rfl⟩, h⟩
    | tick => injection h with h; exact .inr (.inl ⟨_, .inr ⟨rest, hs, rfl⟩, h.symm⟩)
    | keyLevels down => injection h with h; exact .inr (.inr ⟨rest, .inl ⟨down, hs, h.symm⟩⟩)
    | keyEvent id => injection h with h; exact .inr (.inr ⟨rest, .inr (.inl ⟨id, hs, h.symm⟩)⟩)
    | reset image straps =>
      simp only [moveStep, resetStep] at h
      split at h
      · rename_i hf
        injection h with h
        exact .inr (.inr ⟨rest, .inr (.inr ⟨image, straps, hs, by simpa [imageFits] using hf, h.symm⟩)⟩)
      · cases h

/-- A step that is no tick of the Timer Service takes one move from the schedule and adds none. -/
theorem schedule_length_of_step (h : step s = .next t) : (∃ u, TimerMoves s u) ∨ t.schedule.length + 1 = s.schedule.length := by
  rcases step_cases h with ⟨u, ⟨rest, hs, rfl⟩, hc⟩ | ⟨u, hu, -⟩ | ⟨rest, hs⟩
  · right
    have : t.schedule = rest := by
      rcases coreStep_cases hc with ⟨-, rfl⟩ | ⟨-, -, rfl⟩ | ⟨-, -, e, -, rfl⟩ | ⟨-, -, i, -, he⟩
      · rfl
      · rfl
      · rfl
      · exact exec_schedule he
    rw [this, hs]; rfl
  · exact .inl ⟨u, hu⟩
  · right
    rcases hs with ⟨down, hs, rfl⟩ | ⟨id, hs, rfl⟩ | ⟨image, straps, hs, -, rfl⟩
    · rw [hs]; rfl
    · rw [hs]; simp only [State.presentKey]; split <;> rfl
    · rw [hs]; rfl

end Sys2Proof.Machine
end

