-- ==== Sys2Proof/Laws/Decode.lean ====
section
/-! SUPPORT. The fields of a word in each format of 30_encoding R62, a word as the concatenation of its fields, and the bytes
of a word as they stand in memory. -/

namespace Sys2Proof

variable (c x y n : Nibble) (kk : Byte) (nnn : Addr12) (op : Word)

@[simp] theorem fieldC_formatAddr : fieldC (formatAddr c nnn) = c := slice_append_high c nnn

@[simp] theorem fieldNNN_formatAddr : fieldNNN (formatAddr c nnn) = nnn := slice_append_low c nnn

@[simp] theorem fieldC_formatXI : fieldC (formatXI c x kk) = c :=
  (slice_append_in_high (st := 12) (c ++ x) kk (by decide)).trans (slice_append_high c x)

@[simp] theorem fieldX_formatXI : fieldX (formatXI c x kk) = x :=
  (slice_append_in_high (st := 8) (c ++ x) kk (by decide)).trans (slice_append_low c x)

@[simp] theorem fieldKK_formatXI : fieldKK (formatXI c x kk) = kk := slice_append_low (c ++ x) kk

@[simp] theorem fieldC_formatXY : fieldC (formatXY c x y n) = c :=
  (slice_append_in_high (st := 12) (c ++ x ++ y) n (by decide)).trans
    ((slice_append_in_high (st := 8) (c ++ x) y (by decide)).trans (slice_append_high c x))

@[simp] theorem fieldX_formatXY : fieldX (formatXY c x y n) = x :=
  (slice_append_in_high (st := 8) (c ++ x ++ y) n (by decide)).trans
    ((slice_append_in_high (st := 4) (c ++ x) y (by decide)).trans (slice_append_low c x))

@[simp] theorem fieldY_formatXY : fieldY (formatXY c x y n) = y :=
  (slice_append_in_high (st := 4) (c ++ x ++ y) n (by decide)).trans (slice_append_low (c ++ x) y)

@[simp] theorem fieldN_formatXY : fieldN (formatXY c x y n) = n := slice_append_low (c ++ x ++ y) n

/-- A word is its class and its low 12 bits. -/
theorem formatAddr_fields : formatAddr (fieldC op) (fieldNNN op) = op := append_slices (a := 4) (b := 12) op

/-- The two high fields are the high byte. -/
theorem fieldC_append_fieldX : (fieldC op ++ fieldX op : BitVec 8) = op.extractLsb' 8 8 := by
  have h := append_slices (a := 4) (b := 4) (op.extractLsb' 8 8)
  rw [slice_slice op (by decide), slice_slice op (by decide)] at h
  exact h

/-- The two low fields are the low byte. -/
theorem fieldY_append_fieldN : (fieldY op ++ fieldN op : BitVec 8) = fieldKK op := by
  have h := append_slices (a := 4) (b := 4) (op.extractLsb' 0 8)
  rw [slice_slice op (by decide), slice_slice op (by decide)] at h
  exact h

/-- A word is its class, its register X and its low byte. -/
theorem formatXI_fields : formatXI (fieldC op) (fieldX op) (fieldKK op) = op := by
  show (fieldC op ++ fieldX op : BitVec 8) ++ fieldKK op = op
  rw [fieldC_append_fieldX]
  exact append_slices (a := 8) (b := 8) op

/-- A word is its four nibble fields. -/
theorem formatXY_fields : formatXY (fieldC op) (fieldX op) (fieldY op) (fieldN op) = op := by
  have h := append_slices (a := 12) (b := 4) op
  have h2 := append_slices (a := 8) (b := 4) (op.extractLsb' 4 12)
  rw [slice_slice op (by decide), slice_slice op (by decide)] at h2
  show (fieldC op ++ fieldX op : BitVec 8) ++ fieldY op ++ fieldN op = op
  rw [fieldC_append_fieldX]
  rw [← h2] at h
  exact h

/-- A word laid out as two bytes and read back big-endian is the word (R42). -/
@[simp] theorem wordOfBytes_high_low : wordOfBytes (highByte op) (lowByte op) = op := append_slices (a := 8) (b := 8) op

/-! ### The decoder on each format, and the encoder on what a class decoder answers -/

/-- The sixteen opcode classes. -/
theorem nibble_cases : ∀ c : Nibble, c = 0x0#4 ∨ c = 0x1#4 ∨ c = 0x2#4 ∨ c = 0x3#4 ∨ c = 0x4#4 ∨ c = 0x5#4 ∨ c = 0x6#4 ∨
    c = 0x7#4 ∨ c = 0x8#4 ∨ c = 0x9#4 ∨ c = 0xA#4 ∨ c = 0xB#4 ∨ c = 0xC#4 ∨ c = 0xD#4 ∨ c = 0xE#4 ∨ c = 0xF#4 := by decide

/-- A word of format `ADDR` is decoded from its class and address. -/
theorem decode_formatAddr : ∃ x y n kk, decode (formatAddr c nnn) = decodeFields c x y n kk nnn :=
  ⟨_, _, _, _, by simp only [decode, fieldC_formatAddr, fieldNNN_formatAddr]; rfl⟩

/-- A word of format `XI` or `XS` is decoded from its class, register and low byte. -/
theorem decode_formatXI : ∃ y n nnn, decode (formatXI c x kk) = decodeFields c x y n kk nnn :=
  ⟨_, _, _, by simp only [decode, fieldC_formatXI, fieldX_formatXI, fieldKK_formatXI]; rfl⟩

/-- A word of format `XY` or `XYN` is decoded from its class, registers and low nibble. -/
theorem decode_formatXY : ∃ kk nnn, decode (formatXY c x y n) = decodeFields c x y n kk nnn :=
  ⟨_, _, by simp only [decode, fieldC_formatXY, fieldX_formatXY, fieldY_formatXY, fieldN_formatXY]; rfl⟩

variable {x y n kk} {i : Instr}

theorem encode_of_decodeClass8 (h : decodeClass8 x y n = .ok i) : encode i = formatXY 0x8#4 x y n := by
  unfold decodeClass8 at h
  repeat' (split at h; · subst_vars; cases h; rfl)
  cases h

theorem encode_of_decodeClassE (h : decodeClassE x kk = .ok i) : encode i = formatXI 0xE#4 x kk := by
  unfold decodeClassE at h
  repeat' (split at h; · subst_vars; cases h; rfl)
  cases h

theorem encode_of_decodeClassF (h : decodeClassF x kk = .ok i) : encode i = formatXI 0xF#4 x kk := by
  unfold decodeClassF at h
  repeat' (split at h; · subst_vars; cases h; rfl)
  cases h

end Sys2Proof
end

