-- ==== Sys2Proof/Laws/PerInstr.lean ====
section
/-! SUPPORT. The statements made per instruction: the word of an instruction carries the fixed bits of its row of the pattern
list (30_encoding R65). -/

namespace Sys2Proof.Laws.FixedBits

/-- The row of `i` is a row of the list, and the word of `i` has that row's pattern under its mask. -/
def Statement (i : Instr) : Prop := i.row ∈ opcodeRows ∧ encode i &&& i.row.mask = i.row.pattern

theorem and_all (c : Nibble) : c &&& 0xF#4 = c := BitVec.and_allOnes

/-- The class is kept and register X is masked out. -/
theorem mask_class (c x : Nibble) : (c ++ x) &&& (0xF#4 ++ 0x0#4) = c ++ 0x0#4 :=
  (append_and_append c 0xF#4 x 0x0#4).trans (congrArg₂ (· ++ ·) (and_all c) BitVec.and_zero)

/-- The class is kept and both registers are masked out. -/
theorem mask_class_regs (c x y : Nibble) : (c ++ x ++ y) &&& (0xF#4 ++ 0x0#4 ++ 0x0#4) = c ++ 0x0#4 ++ 0x0#4 :=
  (append_and_append (c ++ x) (0xF#4 ++ 0x0#4) y 0x0#4).trans (congrArg₂ (· ++ ·) (mask_class c x) BitVec.and_zero)

/-- Under the mask 0xF000 only the class of an `ADDR` word is left. -/
theorem mask_addr (c : Nibble) (nnn : Addr12) : formatAddr c nnn &&& 0xF000#16 = formatAddr c 0 :=
  (append_and_append c 0xF#4 nnn 0x000#12).trans (congrArg₂ (· ++ ·) (and_all c) BitVec.and_zero)

/-- Under the mask 0xF000 only the class of an `XI` word is left. -/
theorem mask_imm (c x : Nibble) (kk : Byte) : formatXI c x kk &&& 0xF000#16 = formatXI c 0 0 :=
  (append_and_append (c ++ x) (0xF#4 ++ 0x0#4) kk 0x00#8).trans (congrArg₂ (· ++ ·) (mask_class c x) BitVec.and_zero)

/-- Under the mask 0xF0FF the class and the low byte of an `XS` word are left. -/
theorem mask_sub (c x : Nibble) (kk : Byte) : formatXI c x kk &&& 0xF0FF#16 = formatXI c 0 kk :=
  (append_and_append (c ++ x) (0xF#4 ++ 0x0#4) kk 0xFF#8).trans (congrArg₂ (· ++ ·) (mask_class c x) BitVec.and_allOnes)

/-- Under the mask 0xF00F the class and the low nibble of an `XY` word are left. -/
theorem mask_regs (c x y n : Nibble) : formatXY c x y n &&& 0xF00F#16 = formatXY c 0 0 n :=
  (append_and_append (c ++ x ++ y) (0xF#4 ++ 0x0#4 ++ 0x0#4) n 0xF#4).trans
    (congrArg₂ (· ++ ·) (mask_class_regs c x y) (and_all n))

/-- Under the mask 0xF000 only the class of an `XYN` word is left. -/
theorem mask_sprite (c x y n : Nibble) : formatXY c x y n &&& 0xF000#16 = formatXY c 0 0 0 :=
  (append_and_append (c ++ x ++ y) (0xF#4 ++ 0x0#4 ++ 0x0#4) n 0x0#4).trans
    (congrArg₂ (· ++ ·) (mask_class_regs c x y) BitVec.and_zero)

theorem cls : Statement .cls := ⟨by decide, by decide⟩
theorem ret : Statement .ret := ⟨by decide, by decide⟩
theorem jp (nnn : Addr12) : Statement (.jp nnn) := ⟨(by decide : (Instr.jp 0).row ∈ opcodeRows), mask_addr 0x1#4 nnn⟩
theorem call (nnn : Addr12) : Statement (.call nnn) := ⟨(by decide : (Instr.call 0).row ∈ opcodeRows), mask_addr 0x2#4 nnn⟩
theorem seImm (x : Nibble) (kk : Byte) : Statement (.seImm x kk) := ⟨(by decide : (Instr.seImm 0 0).row ∈ opcodeRows), mask_imm 0x3#4 x kk⟩
theorem sneImm (x : Nibble) (kk : Byte) : Statement (.sneImm x kk) := ⟨(by decide : (Instr.sneImm 0 0).row ∈ opcodeRows), mask_imm 0x4#4 x kk⟩
theorem seReg (x : Nibble) (y : Nibble) : Statement (.seReg x y) := ⟨(by decide : (Instr.seReg 0 0).row ∈ opcodeRows), mask_regs 0x5#4 x y 0x0#4⟩
theorem ldImm (x : Nibble) (kk : Byte) : Statement (.ldImm x kk) := ⟨(by decide : (Instr.ldImm 0 0).row ∈ opcodeRows), mask_imm 0x6#4 x kk⟩
theorem addImm (x : Nibble) (kk : Byte) : Statement (.addImm x kk) := ⟨(by decide : (Instr.addImm 0 0).row ∈ opcodeRows), mask_imm 0x7#4 x kk⟩
theorem ldReg (x : Nibble) (y : Nibble) : Statement (.ldReg x y) := ⟨(by decide : (Instr.ldReg 0 0).row ∈ opcodeRows), mask_regs 0x8#4 x y 0x0#4⟩
theorem orReg (x : Nibble) (y : Nibble) : Statement (.orReg x y) := ⟨(by decide : (Instr.orReg 0 0).row ∈ opcodeRows), mask_regs 0x8#4 x y 0x1#4⟩
theorem andReg (x : Nibble) (y : Nibble) : Statement (.andReg x y) := ⟨(by decide : (Instr.andReg 0 0).row ∈ opcodeRows), mask_regs 0x8#4 x y 0x2#4⟩
theorem xorReg (x : Nibble) (y : Nibble) : Statement (.xorReg x y) := ⟨(by decide : (Instr.xorReg 0 0).row ∈ opcodeRows), mask_regs 0x8#4 x y 0x3#4⟩
theorem addReg (x : Nibble) (y : Nibble) : Statement (.addReg x y) := ⟨(by decide : (Instr.addReg 0 0).row ∈ opcodeRows), mask_regs 0x8#4 x y 0x4#4⟩
theorem subReg (x : Nibble) (y : Nibble) : Statement (.subReg x y) := ⟨(by decide : (Instr.subReg 0 0).row ∈ opcodeRows), mask_regs 0x8#4 x y 0x5#4⟩
theorem shr (x : Nibble) (y : Nibble) : Statement (.shr x y) := ⟨(by decide : (Instr.shr 0 0).row ∈ opcodeRows), mask_regs 0x8#4 x y 0x6#4⟩
theorem subnReg (x : Nibble) (y : Nibble) : Statement (.subnReg x y) := ⟨(by decide : (Instr.subnReg 0 0).row ∈ opcodeRows), mask_regs 0x8#4 x y 0x7#4⟩
theorem shl (x : Nibble) (y : Nibble) : Statement (.shl x y) := ⟨(by decide : (Instr.shl 0 0).row ∈ opcodeRows), mask_regs 0x8#4 x y 0xE#4⟩
theorem sneReg (x : Nibble) (y : Nibble) : Statement (.sneReg x y) := ⟨(by decide : (Instr.sneReg 0 0).row ∈ opcodeRows), mask_regs 0x9#4 x y 0x0#4⟩
theorem setIndex (nnn : Addr12) : Statement (.setIndex nnn) := ⟨(by decide : (Instr.setIndex 0).row ∈ opcodeRows), mask_addr 0xA#4 nnn⟩
theorem jpr (nnn : Addr12) : Statement (.jpr nnn) := ⟨(by decide : (Instr.jpr 0).row ∈ opcodeRows), mask_addr 0xB#4 nnn⟩
theorem rnd (x : Nibble) (kk : Byte) : Statement (.rnd x kk) := ⟨(by decide : (Instr.rnd 0 0).row ∈ opcodeRows), mask_imm 0xC#4 x kk⟩
theorem drw (x : Nibble) (y : Nibble) (n : Nibble) : Statement (.drw x y n) := ⟨(by decide : (Instr.drw 0 0 0).row ∈ opcodeRows), mask_sprite 0xD#4 x y n⟩
theorem skp (x : Nibble) : Statement (.skp x) := ⟨(by decide : (Instr.skp 0).row ∈ opcodeRows), mask_sub 0xE#4 x 0x9E#8⟩
theorem sknp (x : Nibble) : Statement (.sknp x) := ⟨(by decide : (Instr.sknp 0).row ∈ opcodeRows), mask_sub 0xE#4 x 0xA1#8⟩
theorem getD (x : Nibble) : Statement (.getD x) := ⟨(by decide : (Instr.getD 0).row ∈ opcodeRows), mask_sub 0xF#4 x 0x07#8⟩
theorem getK (x : Nibble) : Statement (.getK x) := ⟨(by decide : (Instr.getK 0).row ∈ opcodeRows), mask_sub 0xF#4 x 0x0A#8⟩
theorem setD (x : Nibble) : Statement (.setD x) := ⟨(by decide : (Instr.setD 0).row ∈ opcodeRows), mask_sub 0xF#4 x 0x15#8⟩
theorem setS (x : Nibble) : Statement (.setS x) := ⟨(by decide : (Instr.setS 0).row ∈ opcodeRows), mask_sub 0xF#4 x 0x18#8⟩
theorem addIndex (x : Nibble) : Statement (.addIndex x) := ⟨(by decide : (Instr.addIndex 0).row ∈ opcodeRows), mask_sub 0xF#4 x 0x1E#8⟩
theorem setCh (x : Nibble) : Statement (.setCh x) := ⟨(by decide : (Instr.setCh 0).row ∈ opcodeRows), mask_sub 0xF#4 x 0x29#8⟩
theorem std (x : Nibble) : Statement (.std x) := ⟨(by decide : (Instr.std 0).row ∈ opcodeRows), mask_sub 0xF#4 x 0x33#8⟩
theorem str (x : Nibble) : Statement (.str x) := ⟨(by decide : (Instr.str 0).row ∈ opcodeRows), mask_sub 0xF#4 x 0x55#8⟩
theorem ldr (x : Nibble) : Statement (.ldr x) := ⟨(by decide : (Instr.ldr 0).row ∈ opcodeRows), mask_sub 0xF#4 x 0x65#8⟩

end Sys2Proof.Laws.FixedBits
end

