-- ==== Sys2Proof/Tests/Slice0.lean ====
section
/-! SUPPORT. Small tests, each of one step, with the results of the vectors of 95_test_vectors (their ids stand in the
docstrings), the ill-formed terms the checks refuse, and for every statement with hypotheses a witness that meets them. -/

namespace Sys2Proof.Tests

open Sys2Proof Sys2Proof.Machine

/-! ### WellFormed: what the checks refuse -/

/-- R242: an image of 3584 bytes fits, one byte more does not. -/
theorem test_image_size : imageFits (List.replicate 3584 0x00#8) = true ∧ imageFits (List.replicate 3585 0x00#8) = false := by
  simp only [imageFits, List.length_replicate]
  decide

/-- R242: an oversize image is refused by name. -/
theorem test_oversize_image_is_refused :
    resetStep (List.replicate 3585 0x00#8) Config.resetStraps State.reset = .refused .imageTooLarge := by
  have h : imageFits (List.replicate 3585 0x00#8) = false := test_image_size.2
  rw [resetStep, h]; rfl

/-- R66: one word of each illegal class is rejected under that class's name (vectors X5, F25, A45, F26, K6, X8). -/
theorem test_illegal_words :
    decode 0x0000#16 = .error .class0 ∧ decode 0x5121#16 = .error .class5 ∧ decode 0x8128#16 = .error .class8 ∧
    decode 0x9121#16 = .error .class9 ∧ decode 0xE39F#16 = .error .classE ∧ decode 0xF075#16 = .error .classF := by decide

/-- Fewer than two bytes hold no word. -/
theorem test_half_a_word : decodeBytes [0x12#8] = none := by decide

/-! ### Decoding: a word written out from the pattern column of R65 for every constructor -/

theorem test_decode_class_0_to_4 :
    decode 0x00E0#16 = .ok .cls ∧ decode 0x00EE#16 = .ok .ret ∧ decode 0x1ABC#16 = .ok (.jp 0xABC#12) ∧
    decode 0x2ABC#16 = .ok (.call 0xABC#12) ∧ decode 0x3A42#16 = .ok (.seImm 0xA#4 0x42#8) ∧
    decode 0x4A43#16 = .ok (.sneImm 0xA#4 0x43#8) := by decide

theorem test_decode_class_5_to_7 :
    decode 0x5120#16 = .ok (.seReg 0x1#4 0x2#4) ∧ decode 0x6A42#16 = .ok (.ldImm 0xA#4 0x42#8) ∧
    decode 0x7A01#16 = .ok (.addImm 0xA#4 0x01#8) := by decide

theorem test_decode_class_8 :
    decode 0x8120#16 = .ok (.ldReg 0x1#4 0x2#4) ∧ decode 0x8121#16 = .ok (.orReg 0x1#4 0x2#4) ∧
    decode 0x8122#16 = .ok (.andReg 0x1#4 0x2#4) ∧ decode 0x8123#16 = .ok (.xorReg 0x1#4 0x2#4) ∧
    decode 0x8124#16 = .ok (.addReg 0x1#4 0x2#4) ∧ decode 0x8125#16 = .ok (.subReg 0x1#4 0x2#4) ∧
    decode 0x8126#16 = .ok (.shr 0x1#4 0x2#4) ∧ decode 0x8127#16 = .ok (.subnReg 0x1#4 0x2#4) ∧
    decode 0x812E#16 = .ok (.shl 0x1#4 0x2#4) := by decide

theorem test_decode_class_9_to_D :
    decode 0x9120#16 = .ok (.sneReg 0x1#4 0x2#4) ∧ decode 0xA203#16 = .ok (.setIndex 0x203#12) ∧
    decode 0xB300#16 = .ok (.jpr 0x300#12) ∧ decode 0xC10F#16 = .ok (.rnd 0x1#4 0x0F#8) ∧
    decode 0xD125#16 = .ok (.drw 0x1#4 0x2#4 0x5#4) := by decide

theorem test_decode_class_E_and_F :
    decode 0xE39E#16 = .ok (.skp 0x3#4) ∧ decode 0xE3A1#16 = .ok (.sknp 0x3#4) ∧ decode 0xF107#16 = .ok (.getD 0x1#4) ∧
    decode 0xF40A#16 = .ok (.getK 0x4#4) ∧ decode 0xF015#16 = .ok (.setD 0x0#4) ∧ decode 0xF218#16 = .ok (.setS 0x2#4) ∧
    decode 0xF21E#16 = .ok (.addIndex 0x2#4) ∧ decode 0xF329#16 = .ok (.setCh 0x3#4) ∧ decode 0xF033#16 = .ok (.std 0x0#4) ∧
    decode 0xF155#16 = .ok (.str 0x1#4) ∧ decode 0xF265#16 = .ok (.ldr 0x2#4) := by decide

/-- R42: the byte at the lower address is the high byte; the table's bit 0 is the low bit of the word. -/
theorem test_byte_order :
    decodeBytes [0x12#8, 0x34#8] = some (.ok (.jp 0x234#12), []) ∧ encodeBytes (.jp 0x234#12) = [0x12#8, 0x34#8] ∧
    decodeTableWord 16 0x1234 = some (.jp 0x234#12) := by decide

/-! ### One step of the core -/

/-- `State.reset` with the word `op` at `p`, `pc = p` and a move of the core to come. -/
def placed (p op : Word) : State :=
  { State.reset with mem := storeBytes [] p.toNat [highByte op, lowByte op], pc := p, schedule := [.core] }

/-- The next state of a step, seen through `f`; none where the step stops. -/
def seen {α : Type} (s : State) (f : State → α) : Option α :=
  match step s with
  | .next t => some (f t)
  | _ => none

/-- `pc`, the run state and the error latch. -/
def latch (t : State) : Word × RunState × ErrorKind × Word × Word :=
  (t.pc, t.runState, t.errorKind, t.faultPc, t.faultOpcode)

/-- F1: `RET`. -/
theorem test_ret : seen { placed 0x310#16 0x00EE#16 with sp := 1, stack := State.reset.stack.set 0 0x0206#16 }
    (fun t => (t.pc, t.sp.val)) = some (0x0206#16, 0) := by decide

/-- F3: `RET` on an empty stack. -/
theorem test_ret_underflow : seen (placed 0x310#16 0x00EE#16) latch =
    some (0x310#16, .halted, .stackUnderflow, 0x310#16, 0x00EE#16) := by decide

/-- F6: `JP` to an odd address. -/
theorem test_jp : seen (placed 0x200#16 0x1FFF#16) (fun t => t.pc) = some 0x0FFF#16 := by decide

/-- F8: the sixteenth nested `CALL` succeeds. -/
theorem test_call_sixteenth : seen { placed 0x204#16 0x2ABC#16 with sp := 15 }
    (fun t => (t.pc, t.sp.val, t.stack[15])) = some (0x0ABC#16, 16, 0x0206#16) := by decide

/-- F9: the seventeenth faults. -/
theorem test_call_overflow : seen { placed 0x204#16 0x2ABC#16 with sp := 16 } latch =
    some (0x204#16, .halted, .stackOverflow, 0x204#16, 0x2ABC#16) := by decide

/-- F11, F12: `SE Vx,imm`. -/
theorem test_se_imm : seen ((placed 0x200#16 0x3A42#16).setReg 0xA#4 0x42#8) (fun t => t.pc) = some 0x0204#16 ∧
    seen ((placed 0x200#16 0x3A42#16).setReg 0xA#4 0x43#8) (fun t => t.pc) = some 0x0202#16 := by decide

/-- F13, F14: `SNE Vx,imm`. -/
theorem test_sne_imm : seen ((placed 0x200#16 0x4A42#16).setReg 0xA#4 0x42#8) (fun t => t.pc) = some 0x0202#16 ∧
    seen ((placed 0x200#16 0x4A42#16).setReg 0xA#4 0x43#8) (fun t => t.pc) = some 0x0204#16 := by decide

/-- F16, F17: `SE Vx,Vy`. -/
theorem test_se_reg :
    seen (((placed 0x200#16 0x5120#16).setReg 0x1#4 0x07#8).setReg 0x2#4 0x08#8) (fun t => t.pc) = some 0x0202#16 ∧
    seen ((placed 0x200#16 0x5FF0#16).setReg 0xF#4 0x09#8) (fun t => t.pc) = some 0x0204#16 := by decide

/-- F19: `SNE Vx,Vy`. -/
theorem test_sne_reg :
    seen (((placed 0x200#16 0x9120#16).setReg 0x1#4 0x07#8).setReg 0x2#4 0x08#8) (fun t => t.pc) = some 0x0204#16 := by decide

/-- F21, F22: `JPr` wraps modulo 4096. -/
theorem test_jpr : seen ((placed 0x200#16 0xBFFF#16).setReg 0x0#4 0x02#8) (fun t => t.pc) = some 0x0001#16 ∧
    seen ((placed 0x200#16 0xBFFF#16).setReg 0x0#4 0xFF#8) (fun t => t.pc) = some 0x00FE#16 := by decide

/-- A1: `LD Vx,imm`. -/
theorem test_ld_imm : seen (placed 0x200#16 0x6A42#16) (fun t => (t.getReg 0xA#4, t.pc)) = some (0x42#8, 0x0202#16) := by decide

/-- A3: `ADD Vx,imm` wraps and keeps `VF`. -/
theorem test_add_imm : seen (((placed 0x200#16 0x7A01#16).setReg 0xA#4 0xFF#8).setReg 0xF#4 0x55#8)
    (fun t => (t.getReg 0xA#4, t.getReg 0xF#4)) = some (0x00#8, 0x55#8) := by decide

/-- A6: `LD Vx,Vy`. -/
theorem test_ld_reg : seen (((placed 0x200#16 0x8120#16).setReg 0x1#4 0x11#8).setReg 0x2#4 0x22#8)
    (fun t => (t.getReg 0x1#4, t.getReg 0x2#4)) = some (0x22#8, 0x22#8) := by decide

/-- A8, A9, A10: `OR`, `AND`, `XOR`, with `VF` kept. -/
theorem test_bitwise :
    seen (((placed 0x200#16 0x81F1#16).setReg 0x1#4 0x0F#8).setReg 0xF#4 0xF0#8)
      (fun t => (t.getReg 0x1#4, t.getReg 0xF#4)) = some (0xFF#8, 0xF0#8) ∧
    seen (((placed 0x200#16 0x8122#16).setReg 0x1#4 0x3C#8).setReg 0x2#4 0x0F#8) (fun t => t.getReg 0x1#4) = some 0x0C#8 ∧
    seen (((placed 0x200#16 0x8123#16).setReg 0x1#4 0x3C#8).setReg 0x2#4 0x0F#8) (fun t => t.getReg 0x1#4) = some 0x33#8 := by
  decide

/-- A12, A15: `ADD Vx,Vy`. -/
theorem test_add_reg :
    seen (((placed 0x200#16 0x8124#16).setReg 0x1#4 0xC8#8).setReg 0x2#4 0x64#8)
      (fun t => (t.getReg 0x1#4, t.getReg 0xF#4)) = some (0x2C#8, 0x01#8) ∧
    seen (((placed 0x200#16 0x8124#16).setReg 0x1#4 0xFF#8).setReg 0xF#4 0x55#8)
      (fun t => (t.getReg 0x1#4, t.getReg 0xF#4)) = some (0xFF#8, 0x00#8) := by decide

/-- A18: `ADD VF,Vy`: the flag wins. -/
theorem test_add_reg_vf : seen (((placed 0x200#16 0x8F14#16).setReg 0xF#4 0x01#8).setReg 0x1#4 0x02#8)
    (fun t => t.getReg 0xF#4) = some 0x00#8 := by decide

/-- A22, A23: `SUB`. -/
theorem test_sub_reg :
    seen (((placed 0x200#16 0x8125#16).setReg 0x1#4 0x03#8).setReg 0x2#4 0x05#8)
      (fun t => (t.getReg 0x1#4, t.getReg 0xF#4)) = some (0xFE#8, 0x00#8) ∧
    seen (((placed 0x200#16 0x8125#16).setReg 0x1#4 0x05#8).setReg 0x2#4 0x05#8)
      (fun t => (t.getReg 0x1#4, t.getReg 0xF#4)) = some (0x00#8, 0x01#8) := by decide

/-- A28, A29: `SUBN`. -/
theorem test_subn_reg :
    seen (((placed 0x200#16 0x8127#16).setReg 0x1#4 0x03#8).setReg 0x2#4 0x05#8)
      (fun t => (t.getReg 0x1#4, t.getReg 0xF#4)) = some (0x02#8, 0x01#8) ∧
    seen (((placed 0x200#16 0x8127#16).setReg 0x1#4 0x05#8).setReg 0x2#4 0x03#8)
      (fun t => (t.getReg 0x1#4, t.getReg 0xF#4)) = some (0xFE#8, 0x00#8) := by decide

/-- A32, A36: `SHR` ignores `V[y]`; with `x = F` the flag wins. -/
theorem test_shr :
    seen (((placed 0x200#16 0x8126#16).setReg 0x1#4 0x05#8).setReg 0x2#4 0xFF#8)
      (fun t => (t.getReg 0x1#4, t.getReg 0xF#4)) = some (0x02#8, 0x01#8) ∧
    seen ((placed 0x200#16 0x8F06#16).setReg 0xF#4 0x02#8) (fun t => t.getReg 0xF#4) = some 0x00#8 := by decide

/-- A37, A40: `SHL` ignores `V[y]`; with `x = F` the flag wins. -/
theorem test_shl :
    seen (((placed 0x200#16 0x812E#16).setReg 0x1#4 0x81#8).setReg 0x2#4 0xFF#8)
      (fun t => (t.getReg 0x1#4, t.getReg 0xF#4)) = some (0x02#8, 0x01#8) ∧
    seen ((placed 0x200#16 0x8F0E#16).setReg 0xF#4 0x7F#8) (fun t => t.getReg 0xF#4) = some 0x00#8 := by decide

/-- A42: `RND` with mask 0 gives 0 whatever the draw; `pc` advances. -/
theorem test_rnd_mask_zero (r : Byte) : r &&& 0x00#8 = 0x00#8 ∧
    seen ((placed 0x200#16 0xC100#16).setReg 0x1#4 0xAA#8) (fun t => t.pc) = some 0x0202#16 := by
  constructor
  · simp
  · decide

/-- M2: `SetIndex`. -/
theorem test_set_index : seen (placed 0x200#16 0xAFFF#16) (fun t => (t.index, t.pc)) = some (0x0FFF#16, 0x0202#16) := by decide

/-- M5, M6: `AddIndex` wraps at 65536 only. -/
theorem test_add_index :
    seen ({ placed 0x200#16 0xF21E#16 with index := 0x0FFF#16 }.setReg 0x2#4 0x01#8) (fun t => t.index) = some 0x1000#16 ∧
    seen ({ placed 0x200#16 0xF21E#16 with index := 0xFFFF#16 }.setReg 0x2#4 0x02#8) (fun t => t.index) = some 0x0001#16 := by
  decide

/-- M9, M11: `SetCh` takes the low nibble. -/
theorem test_set_ch :
    seen ((placed 0x200#16 0xF329#16).setReg 0x3#4 0xFA#8) (fun t => t.index) = some 0x0032#16 ∧
    seen ((placed 0x200#16 0xF329#16).setReg 0x3#4 0x0F#8) (fun t => t.index) = some 0x004B#16 := by decide

/-- M16: the last legal `STD`. -/
theorem test_std : seen ({ placed 0x200#16 0xF033#16 with index := 0x0FFD#16 }.setReg 0x0#4 0xFE#8)
    (fun t => (t.readMem 0xFFD, t.readMem 0xFFE, t.readMem 0xFFF, t.index)) = some (0x02#8, 0x05#8, 0x04#8, 0x0FFD#16) := by decide

/-- M17: one address further faults and writes nothing. -/
theorem test_std_out_of_range : seen ({ placed 0x200#16 0xF033#16 with index := 0x0FFE#16 }.setReg 0x0#4 0xFF#8)
    (fun t => (latch t, t.readMem 0xFFE)) =
    some ((0x200#16, .halted, .addressOutOfRange, 0x200#16, 0xF033#16), 0x00#8) := by decide

/-- M18, M19: `STR V1` in both modes. -/
theorem test_str :
    seen (({ placed 0x200#16 0xF155#16 with index := 0x0203#16, isSuper := false }.setReg 0x0#4 0x01#8).setReg 0x1#4 0xAB#8)
      (fun t => (t.readMem 0x203, t.readMem 0x204, t.index)) = some (0x01#8, 0xAB#8, 0x0203#16) ∧
    seen (({ placed 0x200#16 0xF155#16 with index := 0x0203#16 }.setReg 0x0#4 0x01#8).setReg 0x1#4 0xAB#8)
      (fun t => (t.readMem 0x203, t.readMem 0x204, t.index)) = some (0x01#8, 0xAB#8, 0x0205#16) := by decide

/-- M23: the byte at 0xFFF is not written although it is in range. -/
theorem test_str_out_of_range : seen ({ placed 0x200#16 0xF155#16 with index := 0x0FFF#16 }.setReg 0x0#4 0x77#8)
    (fun t => (latch t, t.readMem 0xFFF, t.index)) =
    some ((0x200#16, .halted, .addressOutOfRange, 0x200#16, 0xF155#16), 0x00#8, 0x0FFF#16) := by decide

/-- M24, with the font as data: `LDR V2` from 0x000 (glyph 0: F0 90 90); `V3` is kept. -/
theorem test_ldr : seen ((placed 0x200#16 0xF265#16).setReg 0x3#4 0xEE#8)
    (fun t => (t.getReg 0x0#4, t.getReg 0x1#4, t.getReg 0x2#4, t.getReg 0x3#4, t.index)) =
    some (0xF0#8, 0x90#8, 0x90#8, 0xEE#8, 0x0003#16) := by decide

/-- M28: `LDR V0` at 0x1000 faults. -/
theorem test_ldr_out_of_range : seen { placed 0x200#16 0xF065#16 with index := 0x1000#16, isSuper := false } latch =
    some (0x200#16, .halted, .addressOutOfRange, 0x200#16, 0xF065#16) := by decide

/-- D1: `CLS`; pixels (0, 0) and (63, 31) were set. -/
theorem test_cls : seen { placed 0x200#16 0x00E0#16 with display := [(0, 0xFF#8), (2047, 0xFF#8)] }
    (fun t => (t.display, t.events, t.pc)) = some ([], [.displayUpdate [] 64 32], 0x0202#16) := by decide

/-- A byte `b` at 0x300 for `DRW` to draw, with `I = 0x300` and the coordinates in `V0` and `V1`. -/
def sprite (op : Word) (b vx vy : Byte) : State :=
  (({ (placed 0x200#16 op).writeMem 0x300 b with index := 0x0300#16 }).setReg 0x0#4 vx).setReg 0x1#4 vy

/-- D5, D6: the right edge under wrap and under clip. -/
theorem test_drw_edges :
    seen (sprite 0xD011#16 0xFF#8 0x3C#8 0x00#8) (fun t => (t.display.map Prod.fst, t.getReg 0xF#4)) =
      some ([0, 1, 2, 3, 60, 61, 62, 63], 0x00#8) ∧
    seen { sprite 0xD011#16 0xFF#8 0x3C#8 0x00#8 with wrapPolicy := false } (fun t => t.display.map Prod.fst) =
      some [60, 61, 62, 63] := by decide

/-- D22: one draw clears (0, 0), sets (1, 0), collides, and hands over the finished buffer. -/
theorem test_drw_collision :
    seen { sprite 0xD011#16 0xC0#8 0x00#8 0x00#8 with display := [(0, 0xFF#8)] }
      (fun t => (t.display, t.getReg 0xF#4, t.events)) =
    some ([(1, 0xFF#8)], 0x01#8, [.displayUpdate [(1, 0xFF#8)] 64 32]) := by decide

/-- K1, K2, K3: `SKP`. -/
theorem test_skp :
    seen { (placed 0x240#16 0xE39E#16).setReg 0x3#4 0x05#8 with keyDown := 0x0020#16 } (fun t => t.pc) = some 0x0244#16 ∧
    seen ((placed 0x240#16 0xE39E#16).setReg 0x3#4 0x05#8) (fun t => t.pc) = some 0x0242#16 ∧
    seen { (placed 0x240#16 0xE39E#16).setReg 0x3#4 0x1A#8 with keyDown := 0x0400#16 } (fun t => t.pc) = some 0x0244#16 := by
  decide

/-- K4, K5: `SKNP`. -/
theorem test_sknp :
    seen ((placed 0x240#16 0xE3A1#16).setReg 0x3#4 0x05#8) (fun t => t.pc) = some 0x0244#16 ∧
    seen { (placed 0x240#16 0xE3A1#16).setReg 0x3#4 0x05#8 with keyDown := 0x0020#16 } (fun t => t.pc) = some 0x0242#16 := by
  decide

/-- K11: `GetK` suspends the core on itself. -/
theorem test_get_k : seen (placed 0x250#16 0xF40A#16) (fun t => (t.pc, t.runState, t.keyDest)) =
    some (0x0250#16, .awaitingKey, 0x4#4) := by decide

/-- K13: the wake-up. -/
theorem test_wake_up : seen { placed 0x250#16 0xF40A#16 with
      runState := .awaitingKey, keyDest := 0x4#4, schedule := [.keyEvent 0xB#4] }
    (fun t => (t.getReg 0x4#4, t.pc, t.runState)) = some (0x0B#8, 0x0252#16, .running) := by decide

/-- K7: `GetD`. -/
theorem test_get_d : seen { placed 0x200#16 0xF107#16 with timers := 0x0309#16 } (fun t => t.getReg 0x1#4) = some 0x03#8 := by
  decide

/-- K8: `SetD` keeps `sound`. -/
theorem test_set_d : seen ({ placed 0x200#16 0xF015#16 with timers := 0x0009#16 }.setReg 0x0#4 0x03#8) (fun t => t.timers) =
    some 0x0309#16 := by decide

/-- K10: `SetS` of 0 over a running `sound` keeps `delay` and raises no beep. -/
theorem test_set_s : seen ({ placed 0x200#16 0xF218#16 with timers := 0x0504#16 }.setReg 0x2#4 0x00#8)
    (fun t => (t.timers, t.events)) = some (0x0500#16, []) := by decide

/-- K17, K19, K20: ticks. -/
theorem test_tick :
    seen { State.reset with timers := 0x0001#16, schedule := [.tick] } (fun t => (t.timers, t.events)) =
      some (0x0000#16, [.beep]) ∧
    seen { State.reset with timers := 0xFFFF#16, schedule := [.tick] } (fun t => (t.timers, t.events)) =
      some (0xFEFE#16, []) ∧
    seen { State.reset with timers := 0x0201#16, runState := .halted, schedule := [.tick] }
      (fun t => (t.timers, t.events, t.runState)) = some (0x0100#16, [.beep], .halted) := by decide

/-- X1: the last legal fetch. -/
theorem test_last_fetch : seen (placed 0x0FFE#16 0x6A42#16) (fun t => (t.pc, t.getReg 0xA#4)) = some (0x1000#16, 0x42#8) := by
  decide

/-- X2: a fetch at 0xFFF faults; nothing is said of `fault_opcode`. -/
theorem test_flow_guard : seen { State.reset with pc := 0x0FFF#16, schedule := [.core] } (fun t => (t.pc, t.runState, t.errorKind, t.faultPc)) =
    some (0x0FFF#16, .halted, .instructionFlowGuard, 0x0FFF#16) := by decide

/-- R87: the example word 0x0123. -/
theorem test_illegal_opcode : seen (placed 0x200#16 0x0123#16) latch =
    some (0x200#16, .halted, .illegalOpcode, 0x200#16, 0x0123#16) := by decide

/-- R27, R240: the reset of the host with no image and the straps of `Config.resetStraps` gives `State.reset`. -/
theorem test_reset_is_host_reset : State.reset.hostReset [] Config.resetStraps = State.reset := by decide

/-- R215: where the schedule ends the Timer Service ticks, and the moves drawn for after it are some list. -/
theorem test_schedule_ends_in_a_tick :
    ∃ ms, step { State.reset with timers := 0x0201#16 } =
      .next { State.reset with timers := 0x0100#16, events := [.beep], schedule := ms, draws := 1 } := ⟨_, rfl⟩

/-- `withFetchWord` makes the word the next instruction. -/
theorem test_with_fetch_word : seen (State.reset.withFetchWord 16 0x6A42) (fun t => (t.getReg 0xA#4, t.pc)) =
    some (0x42#8, 0x0202#16) := by decide

/-! ### Witnesses: for each statement with hypotheses, states and operands that meet them all, at the ends of the ranges -/

/-- The running machine with `mem` as in `placed` and the moves `ms` to come. -/
def scheduled (p op : Word) (ms : List Move) : State := { placed p op with schedule := ms }

/-- The core waiting on a `GetK V4` at 0x250, with the moves `ms` to come. -/
def waiting (ms : List Move) : State :=
  { scheduled 0x250#16 0xF40A#16 ms with runState := .awaitingKey, keyDest := 0x4#4 }

/-- A halted machine with an illegal word latched, with the moves `ms` to come. -/
def halted (ms : List Move) : State := { State.reset.raise .illegalOpcode 0x0000#16 with schedule := ms }

theorem witness_DecodeInvertsEncode :
    (Instr.drw 0xF#4 0xF#4 0xF#4).wellFormed = true ∧ (Instr.jp 0xFFF#12).wellFormed = true := by decide

theorem witness_EncodeInvertsDecode : decode 0xFF65#16 = .ok (.ldr 0xF#4) ∧ decode 0x8FFE#16 = .ok (.shl 0xF#4 0xF#4) := by decide

theorem witness_DecoderFollowsThePatternList :
    decode 0x1000#16 = .ok (.jp 0x000#12) ∧ decode 0x0FFF#16 = .error .class0 ∧
    (Instr.jp 0x000#12).row ∈ opcodeRows ∧ 0x1000#16 &&& (Instr.jp 0x000#12).row.mask = (Instr.jp 0x000#12).row.pattern := by
  decide

/-- At the last legal fetch, with a core move as the last one scheduled and with more to come. -/
theorem witness_StepRunsTheDecodedInstruction :
    CoreMoves (placed 0xFFE#16 0x6A42#16) (scheduled 0xFFE#16 0x6A42#16 []) ∧
    CoreMoves (scheduled 0xFFE#16 0x6A42#16 [.core, .tick]) (scheduled 0xFFE#16 0x6A42#16 [.tick]) ∧
    (placed 0xFFE#16 0x6A42#16).runState = .running ∧ (placed 0xFFE#16 0x6A42#16).pc.toNat ≤ 0xFFE ∧
    decode ((placed 0xFFE#16 0x6A42#16).readMem 0xFFE ++ (placed 0xFFE#16 0x6A42#16).readMem 0xFFF) =
      .ok (.ldImm 0xA#4 0x42#8) :=
  ⟨⟨_, rfl, rfl⟩, ⟨_, rfl, rfl⟩, by decide, by decide, by decide⟩

/-- Zeroed memory, as after a reset with an empty image. -/
theorem witness_UnmatchedWordTakesIllegalOpcode :
    CoreMoves { State.reset with schedule := [.core] } State.reset ∧ State.reset.runState = .running ∧ State.reset.pc.toNat ≤ 0xFFE ∧
    decode (State.reset.readMem 0x200 ++ State.reset.readMem 0x201) = .error .class0 :=
  ⟨⟨_, rfl, rfl⟩, by decide, by decide, by decide⟩

theorem witness_FetchAboveTheTopTakesFlowGuard :
    CoreMoves (placed 0xFFF#16 0x6A42#16) (scheduled 0xFFF#16 0x6A42#16 []) ∧ (placed 0xFFF#16 0x6A42#16).runState = .running ∧
    0xFFE < (placed 0xFFF#16 0x6A42#16).pc.toNat :=
  ⟨⟨_, rfl, rfl⟩, by decide, by decide⟩

/-- Every clause: a core move, a key event, a tick scheduled and a tick at the end, a step that answers a next state. -/
theorem witness_HaltedCoreHasNoStep :
    (halted []).runState = .halted ∧ CoreMoves (halted [.core]) (halted []) ∧
    (halted [.keyEvent 0x7#4]).schedule = [.keyEvent 0x7#4] ∧ TimerMoves (halted [.tick]) (halted []) ∧
    TimerMoves (halted []) (halted []).drawMoves ∧
    ∃ t, step (halted [.keyEvent 0x7#4]) = .next t :=
  ⟨rfl, ⟨_, rfl, rfl⟩, rfl, .inr ⟨_, rfl, rfl⟩, .inl ⟨rfl, rfl⟩, _, rfl⟩

theorem witness_HaltedStateIsFrozenUntilReset :
    (halted [.tick]).runState = .halted ∧ (∃ t, step (halted [.tick]) = .next t) ∧
    ∃ t, step (halted [.reset [] Config.resetStraps]) = .next t :=
  ⟨rfl, ⟨_, rfl⟩, _, rfl⟩

theorem witness_WaitingStateIsHeldUntilAKey :
    (waiting [.tick]).runState = .awaitingKey ∧ (∃ t, step (waiting [.core]) = .next t) ∧ (∃ t, step (waiting [.tick]) = .next t) ∧
    ∃ t, step (waiting [.keyEvent 0xB#4]) = .next t :=
  ⟨rfl, ⟨_, rfl⟩, ⟨_, rfl⟩, _, rfl⟩

theorem witness_KeyEventWakesTheWaitingCore :
    (waiting [.keyEvent 0xF#4]).runState = .awaitingKey ∧ (waiting [.keyEvent 0xF#4]).schedule = .keyEvent 0xF#4 :: [] :=
  ⟨rfl, rfl⟩

theorem witness_WaitingCoreHoldsWithoutAKey :
    (waiting [.core]).runState = .awaitingKey ∧ CoreMoves (waiting [.core]) (waiting []) := ⟨rfl, _, rfl, rfl⟩

/-- K15. -/
theorem witness_KeyEventWhileRunningIsIgnored :
    (scheduled 0x200#16 0x6A42#16 [.keyEvent 0x7#4]).runState = .running ∧
    (scheduled 0x200#16 0x6A42#16 [.keyEvent 0x7#4]).schedule = .keyEvent 0x7#4 :: [] := ⟨rfl, rfl⟩

theorem witness_TickCountsBothTimersDown :
    TimerMoves (halted [.tick]) (halted []) ∧ TimerMoves State.reset State.reset.drawMoves := ⟨.inr ⟨_, rfl, rfl⟩, .inl ⟨rfl, rfl⟩⟩

/-- The tick that beeps, and a step that is not one. -/
theorem witness_BeepsComeOnlyFromTheTick :
    ({ scheduled 0x200#16 0x6A42#16 [.tick] with timers := 0x0001#16 }).sound = 0x01#8 ∧
    (∃ t, step { scheduled 0x200#16 0x6A42#16 [.tick] with timers := 0x0001#16 } = .next t) ∧
    TimerMoves (scheduled 0x200#16 0x6A42#16 [.tick]) (scheduled 0x200#16 0x6A42#16 []) ∧
    (∀ u, TimerMoves (placed 0x200#16 0x6A42#16) u → (placed 0x200#16 0x6A42#16).sound ≠ 0x01#8) ∧
    ∃ t, step (placed 0x200#16 0x6A42#16) = .next t :=
  ⟨by decide, ⟨_, rfl⟩, .inr ⟨_, rfl, rfl⟩, fun _ _ => by decide, _, rfl⟩

/-- K22. -/
theorem witness_TimerTransactionsNeverTear :
    (∃ a, exec (.setD 0x0#4) { State.reset with timers := 0x0501#16 } = .next a) ∧
    ∃ c, exec (.setS 0x0#4) { State.reset with timers := 0x0501#16 } = .next c := ⟨⟨_, rfl⟩, _, rfl⟩

/-- Both sides of the limit, and the empty image. -/
theorem witness_HostResetLeavesTheResetValues :
    (halted [.reset [] Config.resetStraps]).schedule = .reset [] Config.resetStraps :: [] ∧ ([] : List Byte).length ≤ 3584 ∧
    (List.replicate 3584 0x00#8).length ≤ 3584 ∧ 3584 < (List.replicate 3585 0x00#8).length := by
  simp only [List.length_replicate]
  exact ⟨rfl, by decide, by decide, by decide⟩

/-- A waiting core meets the invariant, and its tick and its wake-up are steps. -/
theorem witness_EveryStepKeepsInv :
    (waiting [.keyEvent 0xB#4]).Inv ∧ ∃ t, step (waiting [.keyEvent 0xB#4]) = .next t := by
  refine ⟨⟨by decide, by decide, by decide, by decide, ?_, fun _ => by decide⟩, _, rfl⟩
  intro i hi
  exact absurd hi (Nat.not_lt_zero _)

theorem witness_OnlyResetWritesTheStraps :
    (∃ t, step (placed 0x200#16 0x6A42#16) = .next t) ∧ ∃ t, step (halted [.reset [] Config.resetStraps]) = .next t :=
  ⟨⟨_, rfl⟩, _, rfl⟩

/-- A running core and an instruction that halts it, for each of the three kinds. -/
theorem witness_InstructionFaultsArePrecise :
    State.reset.runState = .running ∧
    (∃ t, exec .ret State.reset = .next t ∧ t.runState = .halted) ∧
    (∃ t, exec (.call 0x200#12) { State.reset with sp := 16 } = .next t ∧ t.runState = .halted) ∧
    (∃ t, exec (.std 0x0#4) { State.reset with index := 0x0FFE#16 } = .next t ∧ t.runState = .halted) ∧
    (∃ t, exec (.str 0xF#4) { State.reset with index := 0x0FF1#16 } = .next t ∧ t.runState = .halted) ∧
    (∃ t, exec (.ldr 0xF#4) { State.reset with index := 0x0FF1#16 } = .next t ∧ t.runState = .halted) ∧
    ∃ t, exec (.drw 0x0#4 0x1#4 0x2#4) { State.reset with index := 0x0FFF#16 } = .next t ∧ t.runState = .halted :=
  ⟨rfl, ⟨_, rfl, rfl⟩, ⟨_, rfl, rfl⟩, ⟨_, rfl, rfl⟩, ⟨_, rfl, rfl⟩, ⟨_, rfl, rfl⟩, _, rfl, rfl⟩

theorem witness_OnlyItsWritersChangeAStorage :
    (∃ t, exec (.str 0xF#4) State.reset = .next t) ∧ ∃ t, exec (.call 0xFFF#12) State.reset = .next t := ⟨⟨_, rfl⟩, _, rfl⟩

theorem witness_OnlyDrawingRaisesAnEvent :
    (∃ t, exec .cls State.reset = .next t) ∧ ∃ t, exec (.jp 0x200#12) State.reset = .next t := ⟨⟨_, rfl⟩, _, rfl⟩

theorem witness_OnlyFlagInstructionsWriteVFImplicitly :
    (∃ t, exec (.addReg 0xF#4 0xF#4) State.reset = .next t) ∧ ∃ t, exec (.ldr 0xF#4) State.reset = .next t := ⟨⟨_, rfl⟩, _, rfl⟩

/-- F2, F1, F3, and a return to 0x1000, which the next fetch faults on. -/
theorem witness_RetPopsTheStackIntoPc :
    ({ State.reset with sp := 16 }).sp.val = (15 : Fin 16).val + 1 ∧ ({ State.reset with sp := 1 }).sp.val = (0 : Fin 16).val + 1 ∧
    State.reset.sp.val = 0 ∧
    ∃ t, exec .ret { State.reset with sp := 1, stack := State.reset.stack.set 0 0x1000#16 } = .next t ∧ 0xFFE < t.pc.toNat :=
  ⟨by decide, by decide, by decide, _, rfl, by decide⟩

theorem witness_JpSetsPc : (0xFFF#12).toNat = 0xFFF := by decide

/-- F7, F8, F9. -/
theorem witness_CallPushesAndJumps :
    State.reset.sp.val = (0 : Fin 16).val ∧ ({ State.reset with sp := 15 }).sp.val = (15 : Fin 16).val ∧
    ({ State.reset with sp := 16 }).sp.val = 16 ∧ (0 : Fin 16) ≠ 15 := by decide

theorem witness_RetReturnsAfterTheCall :
    ({ State.reset with sp := 15 }).sp.val < 16 ∧
    ∃ t u, exec (.call 0xABC#12) { State.reset with sp := 15 } = .next t ∧ u = { t with pc := 0x0ABE#16 } ∧ u.sp = t.sp ∧
      u.stack = t.stack :=
  ⟨by decide, _, _, rfl, rfl, rfl, rfl⟩

theorem witness_SkipsOnARegister : (0x1#4 : Nibble) ≠ 0x0#4 ∧ (0xF#4 : Nibble) ≠ 0x0#4 := by decide

theorem witness_JprAddsV0Modulo4096 : ∃ t, exec (.jpr 0xFFF#12) State.reset = .next t ∧ t.pc.toNat = 0xFFF :=
  ⟨_, rfl, by decide⟩

/-- F24: a taken skip at 0xFFE; and a state that agrees on registers and keys alone. -/
theorem witness_SkipsNeverReadTheSkippedWord :
    (∃ t, exec (.seImm 0x0#4 0x00#8) { State.reset with pc := 0x0FFE#16 } = .next t ∧ 0xFFE < t.pc.toNat) ∧
    let u := { placed 0x0FFC#16 0x30FF#16 with index := 0xFFFF#16, timers := 0xFFFF#16 }
    (∀ z, u.getReg z = State.reset.getReg z) ∧ u.keyDown = State.reset.keyDown ∧ u.mem ≠ State.reset.mem :=
  ⟨⟨_, rfl, by decide⟩, fun _ => rfl, rfl, by decide⟩

/-- For `ADD`, `SUB`, `SUBN`, `SHR` and `SHL`: a destination that is not `VF`. -/
theorem witness_AddSubSubnAndShifts : (0xE#4 : Nibble) ≠ VF ∧ (0x0#4 : Nibble) ≠ VF := by decide

/-- M16 and M17: both sides of the limit, and an address below the stored bytes. -/
theorem witness_StdStoresTheDecimalDigits :
    ({ State.reset with index := 0x0FFD#16 }).indexed 2 = 0xFFF ∧ ({ State.reset with index := 0x0FFE#16 }).indexed 2 = 0x1000 ∧
    0xFFC < ({ State.reset with index := 0x0FFD#16 }).indexed 0 := by decide

/-- Both sides of the limit for all sixteen registers; the first and the last of them; an address above the stored bytes. -/
theorem witness_StrStoresTheRegisters :
    ({ State.reset with index := 0x0FF0#16 }).indexed (0xF#4 : Nibble).toNat = 0xFFF ∧
    ({ State.reset with index := 0x0FF1#16 }).indexed (0xF#4 : Nibble).toNat = 0x1000 ∧
    (0x0#4 : Nibble).toNat ≤ (0xF#4 : Nibble).toNat ∧ (0xF#4 : Nibble).toNat ≤ (0xF#4 : Nibble).toNat ∧
    ({ State.reset with index := 0x0300#16 }).indexed (0xF#4 : Nibble).toNat < 0x310 := by decide

/-- M27 and M26. -/
theorem witness_LdrLoadsTheRegisters :
    ({ State.reset with index := 0x0FFF#16 }).indexed (0x0#4 : Nibble).toNat = 0xFFF ∧
    ({ State.reset with index := 0x0FFF#16 }).indexed (0x1#4 : Nibble).toNat = 0x1000 := by decide

/-- S4: the registers are zeroed and `I` is set back before the load. -/
theorem witness_LdrRestoresWhatStrStored :
    ({ State.reset with index := 0x0300#16 }).indexed (0x1#4 : Nibble).toNat ≤ 0xFFF ∧
    ∃ t u, exec (.str 0x1#4) { State.reset with index := 0x0300#16 } = .next t ∧
      u = { t with regs := Vector.replicate 16 0x00#8, index := 0x0300#16 } ∧ SameMemory t u ∧ u.index = 0x0300#16 ∧
      u.isSuper = State.reset.isSuper :=
  ⟨by decide, _, _, rfl, rfl, fun _ => rfl, rfl, rfl⟩

/-- `V0 = 6A`, `V1 = 42` stored at 0x300, where the core goes on: `LD VA,0x42`. -/
theorem witness_StoredWordIsTheNextFetch :
    let s := ({ State.reset with index := 0x0300#16 }.setReg 0x0#4 0x6A#8).setReg 0x1#4 0x42#8
    (0x0#4 : Nibble).toNat < (0x1#4 : Nibble).toNat ∧ s.indexed (0x1#4 : Nibble).toNat ≤ 0xFFF ∧
    decode (s.getReg 0x0#4 ++ s.getReg (0x0#4 + 1)) = .ok (.ldImm 0xA#4 0x42#8) ∧
    ∃ t u v, exec (.str 0x1#4) s = .next t ∧ u = { t with pc := 0x0300#16, schedule := [.core] } ∧ SameMemory t u ∧
      u.pc.toNat = s.indexed (0x0#4 : Nibble).toNat ∧ u.runState = .running ∧ CoreMoves u v :=
  ⟨by decide, by decide, by decide, _, _, _, rfl, rfl, fun _ => rfl, by decide, rfl, _, rfl, rfl⟩

theorem witness_ClsClearsTheDisplay : 63 < State.reset.width ∧ 31 < State.reset.height := by decide

/-- D19 and D16 for the range; for the clauses on a pixel, a sprite byte 0xF0 (glyph 0) at (0, 0): it covers (0, 0) and not
(4, 0). -/
theorem witness_DrwTogglesTheCoveredPixels :
    SpriteFits { State.reset with index := 0x0FFF#16 } 0x1#4 ∧ ¬SpriteFits { State.reset with index := 0x0FFF#16 } 0x2#4 ∧
    SpriteCovers State.reset 0x00#8 0x00#8 1 1 0 0 ∧ ¬SpriteCovers State.reset 0x00#8 0x00#8 1 1 4 0 := by
  refine ⟨by unfold SpriteFits; decide, by unfold SpriteFits; decide, ⟨0, 0, by decide⟩, ?_⟩
  rintro ⟨r, c, hr, hc, hb, -, hX⟩
  obtain rfl : r = 0 := by omega
  have hX : 4 = (0 + c) % 64 := hX
  obtain rfl : c = 4 := by omega
  exact absurd hb (by decide)

theorem witness_DrwOfZeroRows : ({ State.reset with isSuper := false }).isSuper = false := rfl

/-- S6, D3, D4. -/
theorem witness_DrawingTwiceRestoresTheDisplay :
    Display.wf (State.reset.width * State.reset.height) State.reset.display ∧ (0x0#4 : Nibble) ≠ VF ∧ (0x1#4 : Nibble) ≠ VF ∧
    SpriteFits State.reset 0x5#4 ∧
    ∃ t u, exec (.drw 0x0#4 0x1#4 0x5#4) State.reset = .next t ∧ exec (.drw 0x0#4 0x1#4 0x5#4) t = .next u :=
  ⟨by decide, by decide, by decide, by unfold SpriteFits; decide, _, _, rfl, rfl⟩

theorem witness_GetKDeliversTheKey :
    let s := scheduled 0xFFE#16 0xFF0A#16 [.core, .tick, .keyEvent 0xF#4]
    s.runState = .running ∧ s.pc.toNat ≤ 0xFFE ∧ s.fetch16 s.pc.toNat = formatXI 0xF#4 0xF#4 0x0A#8 ∧
    s.schedule = .core :: .tick :: .keyEvent 0xF#4 :: [] := ⟨rfl, by decide, by decide, rfl⟩

/-- Each of the three ends: a tick after the moves scheduled, a halted core's move, an image that is too long. -/
theorem witness_TimerServiceTicksAgainAndAgain :
    (∃ t, StepsTo 1 (scheduled 0x200#16 0x6A42#16 [.core]) t ∧ ∃ u, TimerMoves t u) ∧
    step (halted [.core]) = .fault .coreHalted ∧
    step (halted [.reset (List.replicate 3585 0x00#8) Config.resetStraps]) = .refused .imageTooLarge := by
  have long (image : List Byte) (h : imageFits image = false) :
      step (halted [.reset image Config.resetStraps]) = .refused .imageTooLarge := by
    simp [step, cycle, halted, moveStep, resetStep, h]
  exact ⟨⟨_, ⟨_, rfl, rfl⟩, _, .inl ⟨rfl, rfl⟩⟩, rfl, long _ test_image_size.2⟩

/-- P5: `delay` reaches 0 by a tick that is scheduled and the one at the schedule's end, with a step of the core between. -/
theorem witness_DelayReachesZero :
    ∃ t, StepsTo 3 { scheduled 0x200#16 0x6A42#16 [.tick, .core] with timers := 0x0200#16 } t ∧ t.delay = 0 :=
  ⟨_, ⟨_, rfl, _, rfl, _, rfl, rfl⟩, rfl⟩

end Sys2Proof.Tests
end

section
/-! SUPPORT. What an instruction can do to the state, said once for all 34 of them: the kinds of next state `exec` answers,
each with what the frames and the invariant need of it: for a write, the instructions it comes from and the values written. -/

namespace Sys2Proof.Machine

/-- `i` writes `V[x]` because its word names `x` as the destination; no flag (42_alu R120 to R125, R131, 45 R183). -/
def NamesDestination (i : Instr) (x : Nibble) : Prop :=
  (∃ kk, i = .ldImm x kk ∨ i = .addImm x kk ∨ i = .rnd x kk) ∨
  (∃ y, i = .ldReg x y ∨ i = .orReg x y ∨ i = .andReg x y ∨ i = .xorReg x y) ∨ i = .getD x

/-- `i` is one of the five arithmetic instructions that write `V[x]` and then a flag (R12, R126 to R130). -/
def IsFlagArithmetic (i : Instr) (x : Nibble) : Prop :=
  ∃ y, i = .addReg x y ∨ i = .subReg x y ∨ i = .subnReg x y ∨ i = .shr x y ∨ i = .shl x y

/-- `i` writes the timer pair (R16). -/
def WritesTimers (i : Instr) : Prop := (∃ x, i = .setD x) ∨ ∃ x, i = .setS x

/-- `i` writes `I` in either mode (R14). -/
def WritesIndex (i : Instr) : Prop := (∃ nnn, i = .setIndex nnn) ∨ (∃ x, i = .addIndex x) ∨ ∃ x, i = .setCh x

/-- The kinds of next state an instruction can leave `s` in. -/
inductive Effect (s : State) : Instr → State → Prop where
  /-- The instruction takes its fault (R206). -/
  | fault {i : Instr} {k : ErrorKind} (hk : k ≠ .none) : Effect s i (s.raise k (encode i))
  /-- A skip (R108). -/
  | skip {i : Instr} (c : Bool) : Effect s i (s.skip c)
  /-- A jump to a 12-bit address (R101, R107). -/
  | jump {i : Instr} (a : Addr12) : Effect s i (s.setPc (a.setWidth 16))
  /-- A `RET` that finds an entry (R100). -/
  | ret {a : Word} {sp : Fin 17} (hsp : s.sp.val = sp.val + 1) (ha : ∀ i : Fin 16, i.val = sp.val → a = s.stack[i.val]) :
      Effect s .ret { s with sp := sp, pc := a }
  /-- A `CALL` that finds room (R102). -/
  | call {nnn : Addr12} {k : Vector Word 16} {sp : Fin 17} (hsp : sp.val = s.sp.val + 1)
      (hk : ∀ i : Fin 16, k[i.val] = if i.val = s.sp.val then s.pc + 2 else s.stack[i.val]) :
      Effect s (.call nnn) { s with stack := k, sp := sp, pc := nnn.setWidth 16 }
  /-- A write of the destination register; `RND` counts its draw. -/
  | setReg {i : Instr} {x : Nibble} (hi : NamesDestination i x) (v : Byte) (n : Nat) :
      Effect s i ({ s with draws := n }.setReg x v).advance
  /-- A result and its flag (R132). -/
  | flag {i : Instr} {x : Nibble} (hi : IsFlagArithmetic i x) (r : Byte) (b : Bool) :
      Effect s i (s.setResultAndFlag x r (flagByte b)).advance
  /-- A write of `I` (R140 to R142). -/
  | setIndex {i : Instr} (hi : WritesIndex i) (v : Word) : Effect s i (s.setIndex v).advance
  /-- A transaction on the timer pair (R184, R185). -/
  | setTimers {i : Instr} (hi : WritesTimers i) (f : Byte → Byte → Byte × Byte) : Effect s i (s.atomicPairUpdate f).advance
  /-- `GetK` suspends the core (R182). -/
  | getK (x : Nibble) : Effect s (.getK x) { s with keyDest := x, runState := .awaitingKey }
  /-- `STD` in range (R143). -/
  | std {x : Nibble} (hr : s.indexed 2 ≤ 0xFFF) :
      Effect s (.std x) { s with mem := storeBytes s.mem (s.indexed 0) (bcdDigits (s.getReg x)), pc := s.pc + 2 }
  /-- `STR` in range (R144). -/
  | str {x : Nibble} (hr : s.indexed x.toNat ≤ 0xFFF) : Effect s (.str x) { s with
      mem := storeBytes s.mem (s.indexed 0) (s.regBlock x), index := s.indexAfterBlock x, pc := s.pc + 2 }
  /-- `LDR` in range (R145). -/
  | ldr {x : Nibble} {r : Vector Byte 16}
      (hr : ∀ z : Nibble, r[z.toNat]'z.isLt = if z.toNat ≤ x.toNat then s.readMem (s.indexed z.toNat) else s.getReg z) :
      Effect s (.ldr x) { s with regs := r, index := s.indexAfterBlock x, pc := s.pc + 2 }
  /-- `CLS` (R162). -/
  | cls : Effect s .cls { s with display := [] }.emitDisplayUpdate.advance
  /-- `DRW` in range (R163). -/
  | drw {x y n : Nibble} {d : Store} {f : Bool}
      (hd : toggleAll s.display (s.spriteOffsets (s.getReg x) (s.getReg y) (spriteRows s n, spriteRowBytes s n)) = (d, f)) :
      Effect s (.drw x y n) { s with
        display := d
        regs := (s.setReg VF (flagByte f)).regs
        events := s.events ++ [.displayUpdate d s.width s.height]
        pc := s.pc + 2 }

variable {i : Instr} {s t : State}

/-- Everything an instruction can do. -/
theorem effect_of_exec (h : exec i s = .next t) : Effect s i t := by
  cases i
  case ret =>
    rcases execRet_cases s with ⟨-, h'⟩ | ⟨a, sp, h', hsp, ha⟩ <;> cases h'.symm.trans h
    · exact .fault (i := .ret) nofun
    · exact .ret hsp ha
  case call nnn =>
    rcases execCall_cases s nnn with ⟨-, h'⟩ | ⟨k, sp, h', -, hsp, hk⟩ <;> cases h'.symm.trans h
    · exact .fault (i := .call nnn) nofun
    · exact .call hsp hk
  case std x =>
    rcases execStd_cases s x with ⟨-, h'⟩ | ⟨m, hr, rfl, h'⟩ <;> cases h'.symm.trans h
    · exact .fault (i := .std x) nofun
    · exact .std hr
  case str x =>
    rcases execStr_cases s x with ⟨-, h'⟩ | ⟨m, hr, rfl, h'⟩ <;> cases h'.symm.trans h
    · exact .fault (i := .str x) nofun
    · exact .str hr
  case ldr x =>
    rcases execLdr_cases s x with ⟨-, h'⟩ | ⟨r, -, hr, h'⟩ <;> cases h'.symm.trans h
    · exact .fault (i := .ldr x) nofun
    · exact .ldr hr
  case drw x y n =>
    rcases execDrw_cases s x y n with ⟨-, h'⟩ | ⟨d, f, -, hd, h'⟩ <;> cases h'.symm.trans h
    · exact .fault (i := .drw x y n) nofun
    · exact .drw hd
  case jp nnn => cases h; exact .jump nnn
  case jpr nnn => cases h; exact .jump _
  case cls => cases h; exact .cls
  case getK x => cases h; exact .getK x
  case seImm | sneImm | seReg | sneReg | skp | sknp => cases h; exact .skip _
  case setD | setS => cases h; exact .setTimers (by simp [WritesTimers]) _
  case setIndex | addIndex | setCh => cases h; exact .setIndex (by simp [WritesIndex]) _
  case addReg | subReg | subnReg | shr | shl => cases h; exact .flag (by simp [IsFlagArithmetic]) _ _
  case ldImm | addImm | rnd | ldReg | orReg | andReg | xorReg | getD =>
    cases h; exact .setReg (by simp [NamesDestination]) _ _

/-! ### Who writes which storage -/

/-- The straps and the key levels are inputs: no instruction writes them (R19, R24). -/
theorem exec_keeps_straps_and_keys (h : exec i s = .next t) :
    t.isSuper = s.isSuper ∧ t.isExtended = s.isExtended ∧ t.wrapPolicy = s.wrapPolicy ∧ t.keyDown = s.keyDown := by
  cases effect_of_exec h <;> exact ⟨rfl, rfl, rfl, rfl⟩

theorem exec_memory_writers (h : exec i s = .next t) : t.mem = s.mem ∨ (∃ x, i = .std x) ∨ ∃ x, i = .str x := by
  cases effect_of_exec h with
  | std => exact .inr (.inl ⟨_, rfl⟩)
  | str => exact .inr (.inr ⟨_, rfl⟩)
  | _ => exact .inl rfl

theorem exec_stack_writers (h : exec i s = .next t) :
    (t.sp = s.sp ∧ t.stack = s.stack) ∨ i = .ret ∨ ∃ nnn, i = .call nnn := by
  cases effect_of_exec h with
  | ret => exact .inr (.inl rfl)
  | call => exact .inr (.inr ⟨_, rfl⟩)
  | _ => exact .inl ⟨rfl, rfl⟩

theorem exec_display_writers (h : exec i s = .next t) : t.display = s.display ∨ i = .cls ∨ ∃ x y n, i = .drw x y n := by
  cases effect_of_exec h with
  | cls => exact .inr (.inl rfl)
  | drw => exact .inr (.inr ⟨_, _, _, rfl⟩)
  | _ => exact .inl rfl

theorem exec_timer_writers (h : exec i s = .next t) : t.timers = s.timers ∨ WritesTimers i := by
  cases effect_of_exec h with
  | setTimers hi => exact .inr hi
  | _ => exact .inl rfl

/-- A register block leaves `I` alone unless `is_super = 1` (R144, R145). -/
theorem State.indexAfterBlock_cases (s : State) (x : Nibble) : s.indexAfterBlock x = s.index ∨ s.isSuper = true := by
  unfold State.indexAfterBlock
  split
  · exact .inr ‹_›
  · exact .inl rfl

theorem exec_index_writers (h : exec i s = .next t) :
    t.index = s.index ∨ WritesIndex i ∨ (s.isSuper = true ∧ ((∃ x, i = .str x) ∨ ∃ x, i = .ldr x)) := by
  cases effect_of_exec h with
  | setIndex hi => exact .inr (.inl hi)
  | str => exact (s.indexAfterBlock_cases _).imp id fun hs => .inr ⟨hs, .inl ⟨_, rfl⟩⟩
  | ldr => exact (s.indexAfterBlock_cases _).imp id fun hs => .inr ⟨hs, .inr ⟨_, rfl⟩⟩
  | _ => exact .inl rfl

/-! ### `VF` -/

/-- A flag written to `VF` leaves 0 or 1 in it (R12). -/
theorem State.getReg_VF_setReg_flag (s : State) (b : Bool) :
    (s.setReg VF (flagByte b)).getReg VF = 0 ∨ (s.setReg VF (flagByte b)).getReg VF = 1 := by
  rw [State.getReg_setReg_self]
  cases b <;> decide

/-- A write of a register other than `VF` leaves `VF` alone. -/
theorem State.getReg_VF_setReg (s : State) (x : Nibble) (v : Byte) : (s.setReg x v).getReg VF = s.getReg VF ∨ x = VF := by
  by_cases hx : x = VF
  · exact .inr hx
  · exact .inl (s.getReg_setReg_of_ne (Ne.symm hx) v)

/-- `LDR Vx` loads `VF` only when `x = F` (R145). -/
theorem not_VF_le_of_ne {x : Nibble} (hx : x ≠ VF) : ¬VF.toNat ≤ x.toNat := by
  intro hle
  exact hx (BitVec.eq_of_toNat_eq (Nat.le_antisymm (by have := x.isLt; show x.toNat ≤ 15; omega) hle))

/-- Who writes `VF`, and what the flag instructions leave in it (R12, R25 (g)). -/
theorem exec_VF_writers (h : exec i s = .next t) :
    t.getReg VF = s.getReg VF ∨
    ((t.getReg VF = 0 ∨ t.getReg VF = 1) ∧ ((∃ x, IsFlagArithmetic i x) ∨ ∃ x y n, i = .drw x y n)) ∨
    NamesDestination i VF ∨ i = .ldr VF := by
  cases effect_of_exec h with
  | @setReg _ x hi v n =>
    rcases State.getReg_VF_setReg { s with draws := n } x v with hv | rfl
    · exact .inl hv
    · exact .inr (.inr (.inl hi))
  | @flag _ x hi r b => exact .inr (.inl ⟨(s.setReg x r).getReg_VF_setReg_flag b, .inl ⟨x, hi⟩⟩)
  | @drw x y n _ f => exact .inr (.inl ⟨s.getReg_VF_setReg_flag f, .inr ⟨x, y, n, rfl⟩⟩)
  | @ldr x r hr =>
    by_cases hx : x = VF
    · exact .inr (.inr (.inr (hx ▸ rfl)))
    · exact .inl ((hr VF).trans (if_neg (not_VF_le_of_ne hx)))
  | _ => exact .inl rfl

end Sys2Proof.Machine
end

section
/-! SUPPORT. The invariant of the machine (10_state R25, R22) under what the agents do: the inputs and the tick, a fault, an
instruction part by part, the wake-up, the host's reset. -/

namespace Sys2Proof.Machine

variable {i : Instr} {s t u : State}

/-! ### Reset -/

/-- Right after reset, and after a host reset with an image that fits, the invariant holds (R27, R240). -/
theorem State.inv_reset : State.reset.Inv where
  memory := Memory.wf_reset
  display := Display.wf_clear
  latch := by decide
  pcBound := by decide
  stackBound _ h := absurd h (Nat.not_lt_zero _)
  waiting := nofun

theorem State.inv_hostReset (s : State) {image : List Byte} (straps : Straps) (h : image.length ≤ 3584) :
    (s.hostReset image straps).Inv where
  memory := Memory.wf_storeBytes image Store.wf_nil (by simp only [Config.loadBase, Config.memSize]; omega)
  display := Display.wf_clear
  latch := ⟨fun h => absurd rfl h, nofun⟩
  pcBound := by show 0x200 ≤ 0x1002; decide
  stackBound _ h := absurd h (Nat.not_lt_zero _)
  waiting := nofun

/-! ### What the invariant does not look at, and the fault entry -/

/-- The timers, the events, the key levels, the moves to come and the count of draws are free. -/
theorem State.Inv.with_inputs (hs : s.Inv) (timers : Word) (events : List Event) (keyDown : BitVec 16) (schedule : List Move)
    (draws : Nat) :
    { s with timers := timers, events := events, keyDown := keyDown, schedule := schedule, draws := draws }.Inv :=
  ⟨hs.memory, hs.display, hs.latch, hs.pcBound, hs.stackBound, hs.waiting⟩

theorem State.Inv.tick (hs : s.Inv) : s.tick.Inv := by
  rw [State.tick_eq]
  exact hs.with_inputs ..

theorem State.Inv.of_coreMoves (hs : s.Inv) (h : CoreMoves s u) : u.Inv := by
  obtain ⟨rest, -, rfl⟩ := h
  exact hs.with_inputs ..

theorem State.Inv.of_timerMoves (hs : s.Inv) (h : TimerMoves s u) : u.Inv := by
  rw [eq_of_timerMoves h]
  exact hs.with_inputs ..

/-- A fault latches its kind and halts; `pc` and everything else stay (R206). -/
theorem State.Inv.raise (hs : s.Inv) {k : ErrorKind} (hk : k ≠ .none) (w : Word) : (s.raise k w).Inv :=
  ⟨hs.memory, hs.display, ⟨fun _ => rfl, fun _ => hk⟩, hs.pcBound, hs.stackBound, nofun⟩

/-! ### An instruction, part by part -/

/-- `pc + 2` and `pc + 4` from a `pc` that can be fetched from do not wrap. -/
theorem toNat_pc_add {pc : Word} (hp : pc.toNat ≤ 0xFFE) :
    (pc + 2).toNat = pc.toNat + 2 ∧ (pc + 4).toNat = pc.toNat + 4 := by
  constructor <;> bv_omega

/-- A block stored at `I` whose last byte exists keeps memory canonical. -/
theorem State.Inv.memory_storeBlock (hs : s.Inv) {bs : List Byte} {n : Nat} (hlen : bs.length = n + 1)
    (hr : s.indexed n ≤ 0xFFF) : Memory.wf (storeBytes s.mem (s.indexed 0) bs) :=
  Memory.wf_storeBytes bs hs.memory (by simp only [State.indexed, Config.memSize] at *; omega)

theorem exec_keeps_memory_wf (hs : s.Inv) (h : exec i s = .next t) : Memory.wf t.mem := by
  cases effect_of_exec h with
  | std hr => exact hs.memory_storeBlock rfl hr
  | str hr => exact hs.memory_storeBlock (s.length_regBlock _) hr
  | _ => exact hs.memory

theorem exec_keeps_display_wf (hs : s.Inv) (h : exec i s = .next t) : Display.wf (t.width * t.height) t.display := by
  cases effect_of_exec h with
  | cls => exact Display.wf_clear
  | @drw x y n d f hd =>
    have hdrawn : d = (toggleAll s.display _).1 := (congrArg Prod.fst hd).symm
    show Display.wf (s.width * s.height) d
    rw [hdrawn]
    exact wf_toggleAll hs.display fun _ => s.spriteOffsets_lt
  | _ => exact hs.display

theorem exec_keeps_latch (hs : s.Inv) (hr : s.runState = .running) (h : exec i s = .next t) :
    t.errorKind ≠ .none ↔ t.runState = .halted := by
  cases effect_of_exec h with
  | fault hk => exact (hs.raise hk _).latch
  | getK x => simp [hs.latch, hr]
  | _ => exact hs.latch

theorem exec_pc_bound (hs : s.Inv) (hp : s.pc.toNat ≤ 0xFFE) (h : exec i s = .next t) : t.pc.toNat ≤ 0x1002 := by
  obtain ⟨h2, h4⟩ := toNat_pc_add hp
  have address (a : Addr12) : (a.setWidth 16).toNat ≤ 0x1002 := by bv_omega
  have advanced : (s.pc + 2).toNat ≤ 0x1002 := by omega
  cases effect_of_exec h with
  | fault | getK => exact hs.pcBound
  | jump a => exact address a
  | call => exact address _
  | skip c =>
    cases c
    · exact advanced
    · show (s.pc + 4).toNat ≤ 0x1002; omega
  | @ret a sp hsp ha =>
    have hlive := hs.stackBound ⟨sp.val, by omega⟩ (by simp only; omega)
    rw [← ha ⟨sp.val, by omega⟩ rfl] at hlive
    exact hlive.trans (by decide)
  | _ => exact advanced

theorem exec_stack_bound (hs : s.Inv) (hp : s.pc.toNat ≤ 0xFFE) (h : exec i s = .next t) :
    ∀ j : Fin 16, j.val < t.sp.val → (t.stack[j.val]).toNat ≤ 0x1000 := by
  cases effect_of_exec h with
  | ret hsp => exact fun j hj => hs.stackBound j (by simp only at hj; omega)
  | call hsp hk =>
    intro j hj
    simp only [hk, hsp] at hj ⊢
    split
    · have := (toNat_pc_add hp).1; omega
    · exact hs.stackBound j (by omega)
  | _ => exact hs.stackBound

/-- `GetK` leaves the core on its own word; no other instruction makes a running core wait (R182). -/
theorem exec_waiting (hr : s.runState = .running) (hp : s.pc.toNat ≤ 0xFFE) (hd : decode (s.fetch16 s.pc.toNat) = .ok i)
    (h : exec i s = .next t) (hw : t.runState = .awaitingKey) :
    t.pc.toNat ≤ Config.topFetch ∧ decode (t.fetch16 t.pc.toNat) = .ok (.getK t.keyDest) := by
  cases effect_of_exec h with
  | getK x => exact ⟨hp, hd⟩
  | fault => cases hw
  | _ => cases hr.symm.trans hw

/-- The instruction fetched by a running core keeps the invariant. -/
theorem State.Inv.of_exec (hs : s.Inv) (hr : s.runState = .running) (hp : s.pc.toNat ≤ 0xFFE)
    (hd : decode (s.fetch16 s.pc.toNat) = .ok i) (h : exec i s = .next t) : t.Inv :=
  ⟨exec_keeps_memory_wf hs h, exec_keeps_display_wf hs h, exec_keeps_latch hs hr h, exec_pc_bound hs hp h,
    exec_stack_bound hs hp h, exec_waiting hr hp hd h⟩

/-! ### The agents' moves -/

theorem State.Inv.of_coreStep (hs : s.Inv) (h : coreStep s = .next t) : t.Inv := by
  rcases coreStep_cases h with ⟨-, rfl⟩ | ⟨-, -, rfl⟩ | ⟨-, -, e, -, rfl⟩ | ⟨hr, hp, i, hd, he⟩
  · exact hs
  · exact (hs.with_inputs s.timers s.events s.keyDown s.schedule (s.draws + 1)).raise (k := .instructionFlowGuard) nofun _
  · exact hs.raise (k := .illegalOpcode) nofun _
  · exact hs.of_exec hr hp hd he

/-- The wake-up runs on from behind the `GetK`, which could be fetched (R85). -/
theorem State.Inv.wakeUp (hs : s.Inv) (hw : s.runState = .awaitingKey) (id : Nibble) : (s.wakeUp id).Inv where
  memory := hs.memory
  display := hs.display
  latch := by
    show s.errorKind ≠ .none ↔ RunState.running = .halted
    simp [hs.latch, hw]
  pcBound := by
    have hp := (hs.waiting hw).1
    show (s.pc + 2).toNat ≤ 0x1002
    rw [(toNat_pc_add hp).1]
    exact Nat.add_le_add_right (hp.trans (by decide : Config.topFetch ≤ 0x1000)) 2
  stackBound := hs.stackBound
  waiting := nofun

theorem State.Inv.presentKey (hs : s.Inv) (id : Nibble) : (s.presentKey id).Inv := by
  by_cases hw : s.runState = .awaitingKey
  · have : s.presentKey id = s.wakeUp id := by simp only [State.presentKey, hw]
    rw [this]
    exact hs.wakeUp hw id
  · rw [presentKey_of_not_waiting hw]
    exact hs

/-- Every step that answers a next state keeps the invariant. -/
theorem State.Inv.of_step (hs : s.Inv) (h : step s = .next t) : t.Inv := by
  rcases step_cases h with ⟨u, hu, hc⟩ | ⟨u, hu, rfl⟩ |
    ⟨rest, ⟨down, -, rfl⟩ | ⟨id, -, rfl⟩ | ⟨image, straps, -, hlen, rfl⟩⟩
  · exact (hs.of_coreMoves hu).of_coreStep hc
  · exact (hs.of_timerMoves hu).tick
  · exact hs.with_inputs s.timers s.events down rest s.draws
  · exact (hs.with_inputs s.timers s.events s.keyDown rest s.draws).presentKey id
  · exact State.inv_hostReset _ straps hlen

end Sys2Proof.Machine
end

section
/-! CLAIMS. The state after reset and what every step keeps (10_state). -/

namespace Sys2Proof.Machine

variable {s t : State}

/-! ### Tier 3 -/

/-- Settles O22, by what each agent's move does to the parts of the invariant. -/
theorem everyStepKeepsInv : Obligations.EveryStepKeepsInv := fun _ _ hs h => hs.of_step h

/-! ### Tier 2 -/

/-- `t` has the straps of `s` (R19). -/
def SameStraps (s t : State) : Prop := t.isSuper = s.isSuper ∧ t.isExtended = s.isExtended ∧ t.wrapPolicy = s.wrapPolicy

theorem coreStep_keeps_straps (h : coreStep s = .next t) : SameStraps s t := by
  rcases coreStep_cases h with ⟨-, rfl⟩ | ⟨-, -, rfl⟩ | ⟨-, -, e, -, rfl⟩ | ⟨-, -, i, -, he⟩
  · exact ⟨rfl, rfl, rfl⟩
  · exact ⟨rfl, rfl, rfl⟩
  · exact ⟨rfl, rfl, rfl⟩
  · obtain ⟨hsuper, hext, hwrap, -⟩ := exec_keeps_straps_and_keys he
    exact ⟨hsuper, hext, hwrap⟩

theorem tick_keeps_straps (s : State) : SameStraps s s.tick := by
  rw [State.tick_eq]
  exact ⟨rfl, rfl, rfl⟩

theorem presentKey_keeps_straps (s : State) (id : Nibble) : SameStraps s (s.presentKey id) := by
  unfold State.presentKey
  split <;> exact ⟨rfl, rfl, rfl⟩

/-- Settles O23, move by move: only the host's reset is given straps. -/
theorem onlyResetWritesTheStraps : Obligations.OnlyResetWritesTheStraps := by
  intro s t h
  rcases step_cases h with ⟨u, ⟨rest, -, rfl⟩, hc⟩ | ⟨u, hu, rfl⟩ |
    ⟨rest, ⟨down, -, rfl⟩ | ⟨id, -, rfl⟩ | ⟨image, straps, hs, -, rfl⟩⟩
  · have hstraps := coreStep_keeps_straps hc
    exact .inl hstraps
  · rw [eq_of_timerMoves hu]
    exact .inl (tick_keeps_straps _)
  · exact .inl ⟨rfl, rfl, rfl⟩
  · exact .inl (presentKey_keeps_straps _ id)
  · exact .inr ⟨image, straps, rest, hs, rfl, rfl, rfl⟩

/-- Settles O26, storage by storage. -/
theorem onlyItsWritersChangeAStorage : Obligations.OnlyItsWritersChangeAStorage := by
  intro i s t h
  refine ⟨(exec_memory_writers h).imp sameMemory_of_mem_eq id, exec_stack_writers h, exec_display_writers h,
    exec_timer_writers h, ?_, exec_keeps_straps_and_keys h⟩
  rcases exec_index_writers h with hi | (hi | hi | hi) | hi
  · exact .inl hi
  · exact .inr (.inl hi)
  · exact .inr (.inr (.inl hi))
  · exact .inr (.inr (.inr (.inl hi)))
  · exact .inr (.inr (.inr (.inr hi)))

/-- Settles O28, from who writes `VF`. -/
theorem onlyFlagInstructionsWriteVFImplicitly : Obligations.OnlyFlagInstructionsWriteVFImplicitly := by
  intro i s t h
  rcases exec_VF_writers h with hv | ⟨hv, hi⟩ | (hi | hi | hi) | hi
  · exact .inl hv
  · exact .inr (.inl ⟨hv, hi⟩)
  · exact .inr (.inr (.inl hi))
  · exact .inr (.inr (.inr (.inl hi)))
  · exact .inr (.inr (.inr (.inr (.inl hi))))
  · exact .inr (.inr (.inr (.inr (.inr hi))))

/-- Settles O32: the entry the `RET` pops is the one the `CALL` pushed. -/
theorem retReturnsAfterTheCall : Obligations.RetReturnsAfterTheCall := by
  intro nnn s t u hroom hcall husp hustack
  rcases execCall_cases s nnn with ⟨hfull, -⟩ | ⟨k, sp, h', -, hsp, hk⟩
  · omega
  cases h'.symm.trans hcall
  simp only at husp hustack
  rcases execRet_cases u with ⟨hempty, -⟩ | ⟨a, sp', hret, hsp', ha⟩
  · rw [husp] at hempty; omega
  have hback : sp'.val = s.sp.val := by rw [husp] at hsp'; omega
  have hentry (j : Fin 16) : u.stack[j.val] = if j.val = s.sp.val then s.pc + 2 else s.stack[j.val] := by
    simp only [hustack, hk j]
  refine ⟨_, hret, ?_, Fin.ext hback, fun j hj => (hentry j).trans (if_neg hj.ne)⟩
  exact (ha ⟨s.sp.val, hroom⟩ hback.symm).trans ((hentry _).trans (if_pos rfl))

/-! ### Tier 1 -/

/-- A byte above the font that nothing has written is 0x00 (R27, D22). -/
theorem resetByte_above_font {a : Nat} (h : 80 ≤ a) : resetByte a = 0x00#8 :=
  List.getD_eq_default _ _ ((by decide : font.length ≤ 80).trans h)

theorem reset_getReg (z : Nibble) : State.reset.getReg z = 0x00#8 := Vector.getElem_replicate z.isLt

/-- Settles O19: the values are those of `State.reset`, read through the register file, the stack and the two stores. -/
theorem resetStateHoldsTheSpecsValues : Obligations.ResetStateHoldsTheSpecsValues :=
  ⟨reset_getReg, rfl, rfl, rfl, fun i => Vector.getElem_replicate i.isLt, by decide, by decide,
    fun _ h => resetByte_above_font h, fun _ _ => rfl, rfl, rfl, rfl, rfl, rfl, rfl, rfl, rfl⟩

/-- Settles O21: every part of the invariant is read off `State.reset`. -/
theorem invHoldsAtReset : Obligations.InvHoldsAtReset := State.inv_reset

end Sys2Proof.Machine
end

section
/-! CLAIMS. Memory as the core fetches it, and its reset contents (20_memory). -/

namespace Sys2Proof.Machine

variable {x z : Nibble} {s t u v : State} {i : Instr}

/-! ### What the next step fetches -/

/-- States with the same memory fetch the same words. -/
theorem SameMemory.fetch16_eq (h : SameMemory t u) (a : Nat) : u.fetch16 a = t.fetch16 a :=
  congrArg₂ wordOfBytes (h a) (h (a + 1))

/-- A running core whose move is next runs the instruction the word at `pc` decodes to (R80 to R82). -/
theorem step_eq_exec_of_decode (hv : CoreMoves u v) (hr : u.runState = .running) (hp : u.pc.toNat ≤ 0xFFE)
    (hd : decode (u.fetch16 u.pc.toNat) = .ok i) : step u = exec i v := by
  have hd' : decode (v.fetch16 v.pc.toNat) = .ok i := by
    rw [pc_of_coreMoves hv, SameMemory.fetch16_eq (readMem_of_coreMoves hv), hd]
  have hp' : ¬Config.topFetch < v.pc.toNat := by rw [pc_of_coreMoves hv]; exact Nat.not_lt.mpr hp
  simp only [step_of_coreMoves hv, coreStep, runState_of_coreMoves hv, hr, runInstruction, if_neg hp', hd']

/-! ### What `STR` leaves in memory -/

/-- The byte at the address of a stored register (R144). -/
theorem readMem_of_exec_str (hx : s.indexed x.toNat ≤ 0xFFF) (h : exec (.str x) s = .next t) (hz : z.toNat ≤ x.toNat) :
    t.readMem (s.indexed z.toNat) = s.getReg z := by
  rcases execStr_cases s x with ⟨hout, -⟩ | ⟨m, -, rfl, h'⟩
  · omega
  · cases h'.symm.trans h
    exact read_regBlock s x z hz

/-- A register below another has a successor, which is no wrap to `V[0]`. -/
theorem toNat_add_one_of_lt (h : z.toNat < x.toNat) : (z + 1).toNat = z.toNat + 1 := by bv_omega

/-- The word at the address of a stored register that is not the last: its byte, then the next register's as the low byte (R42). -/
theorem fetch16_of_exec_str (hx : s.indexed x.toNat ≤ 0xFFF) (h : exec (.str x) s = .next t) (hz : z.toNat < x.toNat) :
    t.fetch16 (s.indexed z.toNat) = s.getReg z ++ s.getReg (z + 1) := by
  have hsucc := toNat_add_one_of_lt hz
  have hhigh := readMem_of_exec_str hx h hz.le
  have hlow : t.readMem (s.indexed z.toNat + 1) = s.getReg (z + 1) := by
    have := readMem_of_exec_str (z := z + 1) hx h (by omega)
    rwa [hsucc] at this
  exact congrArg₂ wordOfBytes hhigh hlow

/-! ### Tier 2 -/

/-- Settles O49: the `STR` leaves the word where the core fetches next, and with `z < x` that address can be fetched from. -/
theorem storedWordIsTheNextFetch : Obligations.StoredWordIsTheNextFetch := by
  intro x z s t u v i hz hx hstr hmem hpc hrun hmove hdec
  have hfetch : u.fetch16 u.pc.toNat = s.getReg z ++ s.getReg (z + 1) := by
    rw [hmem.fetch16_eq, hpc, fetch16_of_exec_str hx hstr hz]
  have hguard : u.pc.toNat ≤ 0xFFE := by simp only [State.indexed] at hpc hx; omega
  exact step_eq_exec_of_decode hmove hrun hguard (hfetch ▸ hdec)

/-! ### Tier 1 -/

/-- The first bytes of memory after reset are the font (R27, R41). -/
theorem map_readMem_reset : (List.range font.length).map State.reset.readMem = font := by
  refine List.ext_getElem (by simp) fun a _ ha => ?_
  rw [List.getElem_map, List.getElem_range]
  exact List.getD_eq_getElem font 0x00#8 ha

/-- Settles O20: the model's font is the table of R54, glyph by glyph. -/
theorem fontsetAtReset : Obligations.FontsetAtReset := map_readMem_reset

end Sys2Proof.Machine
end

section
/-! SUPPORT. The decoder in both directions (30_encoding R61 to R66): on the encoder's words, on a word of each class, and on a
word that matches a row of the pattern list. -/

namespace Sys2Proof

variable {c x y n : Nibble} {kk : Byte} {op p : Word} {i : Instr} {e : Illegal}

/-! ### The decoder on the encoder's words -/

/-- The decoder gives every instruction back from its word, format by format (R62). -/
theorem decode_encode (i : Instr) : decode (encode i) = .ok i := by
  cases i
  case cls | ret => decide
  case jp | call | setIndex | jpr =>
    simp only [encode, decode, fieldC_formatAddr, fieldNNN_formatAddr]; rfl
  case seImm | sneImm | ldImm | addImm | rnd | skp | sknp
      | getD | getK | setD | setS | addIndex | setCh | std | str | ldr =>
    simp only [encode, decode, fieldC_formatXI, fieldX_formatXI, fieldKK_formatXI]; rfl
  case seReg | sneReg | ldReg | orReg | andReg | xorReg | addReg | subReg | shr | subnReg | shl | drw =>
    simp only [encode, decode, fieldC_formatXY, fieldX_formatXY, fieldY_formatXY, fieldN_formatXY]; rfl

/-- The bytes of an instruction are decoded where they stand; what follows them is left (R42). -/
theorem decodeBytes_encodeBytes_append (i : Instr) (rest : List Byte) :
    decodeBytes (encodeBytes i ++ rest) = some (.ok i, rest) := by
  show some (decode (wordOfBytes (highByte (encode i)) (lowByte (encode i))), rest) = _
  rw [wordOfBytes_high_low, decode_encode]

/-! ### The decoder on a word of a known class -/

theorem decode_of_fieldC (hc : fieldC op = c) :
    decode op = decodeFields c (fieldX op) (fieldY op) (fieldN op) (fieldKK op) (fieldNNN op) := hc ▸ rfl

theorem formatAddr_of_fieldC (hc : fieldC op = c) : formatAddr c (fieldNNN op) = op := hc ▸ formatAddr_fields op

/-- A word of a class is known by its address. -/
theorem eq_formatAddr_iff (hc : fieldC op = c) (nnn : Addr12) : op = formatAddr c nnn ↔ fieldNNN op = nnn :=
  ⟨fun h => h ▸ fieldNNN_formatAddr c nnn, fun h => h ▸ (formatAddr_of_fieldC hc).symm⟩

theorem formatXI_of_fieldC (hc : fieldC op = c) : formatXI c (fieldX op) (fieldKK op) = op := hc ▸ formatXI_fields op

theorem formatXY_of_fields (hc : fieldC op = c) (hn : fieldN op = n) : formatXY c (fieldX op) (fieldY op) n = op :=
  hc ▸ hn ▸ formatXY_fields op

theorem decode_of_class0 (hc : fieldC op = 0x0#4) : decode op =
    if fieldNNN op = 0x0E0#12 then .ok .cls else if fieldNNN op = 0x0EE#12 then .ok .ret else .error .class0 :=
  decode_of_fieldC hc

theorem decode_of_class5 (hc : fieldC op = 0x5#4) :
    decode op = if fieldN op = 0x0#4 then .ok (.seReg (fieldX op) (fieldY op)) else .error .class5 := decode_of_fieldC hc

theorem decode_of_class8 (hc : fieldC op = 0x8#4) : decode op = decodeClass8 (fieldX op) (fieldY op) (fieldN op) :=
  decode_of_fieldC hc

theorem decode_of_class9 (hc : fieldC op = 0x9#4) :
    decode op = if fieldN op = 0x0#4 then .ok (.sneReg (fieldX op) (fieldY op)) else .error .class9 := decode_of_fieldC hc

theorem decode_of_classE (hc : fieldC op = 0xE#4) : decode op = decodeClassE (fieldX op) (fieldKK op) :=
  decode_of_fieldC hc

theorem decode_of_classF (hc : fieldC op = 0xF#4) : decode op = decodeClassF (fieldX op) (fieldKK op) :=
  decode_of_fieldC hc

/-! ### What is rejected -/

/-- A row tried before the rest `r` of the list: a rejected word misses it and is rejected by the rest. -/
theorem ite_ok_eq_error_iff {P : Prop} [Decidable P] {r : Except Illegal Instr} :
    (if P then .ok i else r) = .error e ↔ ¬P ∧ r = .error e := by
  split_ifs with hP <;> simp [hP]

/-- Class 8 rejects a word by its low nibble, under its own name. -/
theorem decodeClass8_eq_error_iff : decodeClass8 x y n = .error e ↔
    n ∉ [0x0#4, 0x1#4, 0x2#4, 0x3#4, 0x4#4, 0x5#4, 0x6#4, 0x7#4, 0xE#4] ∧ .class8 = e := by
  simp only [decodeClass8, ite_ok_eq_error_iff, Except.error.injEq, List.mem_cons, List.not_mem_nil, or_false, not_or,
    and_assoc]

/-- The low nibbles class 8 has no operation for are those R66 lists. -/
theorem not_mem_class8_iff : ∀ n : Nibble, n ∉ [0x0#4, 0x1#4, 0x2#4, 0x3#4, 0x4#4, 0x5#4, 0x6#4, 0x7#4, 0xE#4] ↔
    n ∈ [0x8#4, 0x9#4, 0xA#4, 0xB#4, 0xC#4, 0xD#4, 0xF#4] := by decide

/-- Class E rejects a word by its low byte, under its own name. -/
theorem decodeClassE_eq_error_iff : decodeClassE x kk = .error e ↔ kk ∉ [0x9E#8, 0xA1#8] ∧ .classE = e := by
  simp only [decodeClassE, ite_ok_eq_error_iff, Except.error.injEq, List.mem_cons, List.not_mem_nil, or_false, not_or,
    and_assoc]

/-- Class F rejects a word by its low byte, under its own name. -/
theorem decodeClassF_eq_error_iff : decodeClassF x kk = .error e ↔
    kk ∉ [0x07#8, 0x0A#8, 0x15#8, 0x18#8, 0x1E#8, 0x29#8, 0x33#8, 0x55#8, 0x65#8] ∧ .classF = e := by
  simp only [decodeClassF, ite_ok_eq_error_iff, Except.error.injEq, List.mem_cons, List.not_mem_nil, or_false, not_or,
    and_assoc]

/-! ### What the decoder's answer says of the word -/

/-- The class of the words rejected under this name (R66). -/
def Illegal.opcodeClass : Illegal → Nibble
  | .class0 => 0x0#4
  | .class5 => 0x5#4
  | .class8 => 0x8#4
  | .class9 => 0x9#4
  | .classE => 0xE#4
  | .classF => 0xF#4

/-- The answer fits the word: an instruction is encoded by it, a rejection names its class. -/
def AnswerFits (op : Word) : Except Illegal Instr → Prop
  | .ok i => encode i = op
  | .error e => fieldC op = e.opcodeClass

/-- Class by class, from 0 to F: a legal word is rebuilt from the fields its instruction keeps (R65, R68). -/
theorem answerFits_decode (op : Word) : AnswerFits op (decode op) := by
  rcases nibble_cases (fieldC op) with hc | hc | hc | hc | hc | hc | hc | hc | hc | hc | hc | hc | hc | hc | hc | hc
  · rw [decode_of_class0 hc]
    split_ifs with hcls hret
    · exact ((eq_formatAddr_iff hc 0x0E0#12).mpr hcls).symm
    · exact ((eq_formatAddr_iff hc 0x0EE#12).mpr hret).symm
    · exact hc
  · exact decode_of_fieldC hc ▸ formatAddr_of_fieldC hc
  · exact decode_of_fieldC hc ▸ formatAddr_of_fieldC hc
  · exact decode_of_fieldC hc ▸ formatXI_of_fieldC hc
  · exact decode_of_fieldC hc ▸ formatXI_of_fieldC hc
  · rw [decode_of_class5 hc]
    split_ifs with hn
    · exact formatXY_of_fields hc hn
    · exact hc
  · exact decode_of_fieldC hc ▸ formatXI_of_fieldC hc
  · exact decode_of_fieldC hc ▸ formatXI_of_fieldC hc
  · rw [decode_of_class8 hc]
    cases h : decodeClass8 (fieldX op) (fieldY op) (fieldN op) with
    | ok i => exact (encode_of_decodeClass8 h).trans (formatXY_of_fields hc rfl)
    | error e => exact (decodeClass8_eq_error_iff.mp h).2 ▸ hc
  · rw [decode_of_class9 hc]
    split_ifs with hn
    · exact formatXY_of_fields hc hn
    · exact hc
  · exact decode_of_fieldC hc ▸ formatAddr_of_fieldC hc
  · exact decode_of_fieldC hc ▸ formatAddr_of_fieldC hc
  · exact decode_of_fieldC hc ▸ formatXI_of_fieldC hc
  · exact decode_of_fieldC hc ▸ formatXY_of_fields hc rfl
  · rw [decode_of_classE hc]
    cases h : decodeClassE (fieldX op) (fieldKK op) with
    | ok i => exact (encode_of_decodeClassE h).trans (formatXI_of_fieldC hc)
    | error e => exact (decodeClassE_eq_error_iff.mp h).2 ▸ hc
  · rw [decode_of_classF hc]
    cases h : decodeClassF (fieldX op) (fieldKK op) with
    | ok i => exact (encode_of_decodeClassF h).trans (formatXI_of_fieldC hc)
    | error e => exact (decodeClassF_eq_error_iff.mp h).2 ▸ hc

theorem encode_of_decode (h : decode op = .ok i) : encode i = op := by
  have hfits := answerFits_decode op
  rwa [h] at hfits

theorem fieldC_of_decode_error (h : decode op = .error e) : fieldC op = e.opcodeClass := by
  have hfits := answerFits_decode op
  rwa [h] at hfits

/-- To say which words are rejected under a name, look at the words of its class only. -/
theorem decode_eq_error_iff {P : Prop} (h : fieldC op = e.opcodeClass → (decode op = .error e ↔ P)) :
    decode op = .error e ↔ fieldC op = e.opcodeClass ∧ P :=
  ⟨fun hd => ⟨fieldC_of_decode_error hd, (h (fieldC_of_decode_error hd)).mp hd⟩, fun ⟨hc, hP⟩ => (h hc).mpr hP⟩

/-- A word of class 0 is rejected unless it is `00E0` or `00EE` (R66). -/
theorem decode_eq_class0_iff (hc : fieldC op = 0x0#4) : decode op = .error .class0 ↔ op ≠ 0x00E0#16 ∧ op ≠ 0x00EE#16 := by
  have hcls : op = 0x00E0#16 ↔ fieldNNN op = 0x0E0#12 := eq_formatAddr_iff hc 0x0E0#12
  have hret : op = 0x00EE#16 ↔ fieldNNN op = 0x0EE#12 := eq_formatAddr_iff hc 0x0EE#12
  rw [decode_of_class0 hc, ite_ok_eq_error_iff, ite_ok_eq_error_iff, Ne, Ne, hcls, hret, eq_self_iff_true, and_true]

/-! ### The decoder and the pattern list -/

/-- The word of every instruction carries the fixed bits of its row (R65). -/
theorem fixedBits : ∀ i : Instr, Laws.FixedBits.Statement i
  | .cls => Laws.FixedBits.cls
  | .ret => Laws.FixedBits.ret
  | .jp _ => Laws.FixedBits.jp _
  | .call _ => Laws.FixedBits.call _
  | .seImm _ _ => Laws.FixedBits.seImm _ _
  | .sneImm _ _ => Laws.FixedBits.sneImm _ _
  | .seReg _ _ => Laws.FixedBits.seReg _ _
  | .ldImm _ _ => Laws.FixedBits.ldImm _ _
  | .addImm _ _ => Laws.FixedBits.addImm _ _
  | .ldReg _ _ => Laws.FixedBits.ldReg _ _
  | .orReg _ _ => Laws.FixedBits.orReg _ _
  | .andReg _ _ => Laws.FixedBits.andReg _ _
  | .xorReg _ _ => Laws.FixedBits.xorReg _ _
  | .addReg _ _ => Laws.FixedBits.addReg _ _
  | .subReg _ _ => Laws.FixedBits.subReg _ _
  | .shr _ _ => Laws.FixedBits.shr _ _
  | .subnReg _ _ => Laws.FixedBits.subnReg _ _
  | .shl _ _ => Laws.FixedBits.shl _ _
  | .sneReg _ _ => Laws.FixedBits.sneReg _ _
  | .setIndex _ => Laws.FixedBits.setIndex _
  | .jpr _ => Laws.FixedBits.jpr _
  | .rnd _ _ => Laws.FixedBits.rnd _ _
  | .drw _ _ _ => Laws.FixedBits.drw _ _ _
  | .skp _ => Laws.FixedBits.skp _
  | .sknp _ => Laws.FixedBits.sknp _
  | .getD _ => Laws.FixedBits.getD _
  | .getK _ => Laws.FixedBits.getK _
  | .setD _ => Laws.FixedBits.setD _
  | .setS _ => Laws.FixedBits.setS _
  | .addIndex _ => Laws.FixedBits.addIndex _
  | .setCh _ => Laws.FixedBits.setCh _
  | .std _ => Laws.FixedBits.std _
  | .str _ => Laws.FixedBits.str _
  | .ldr _ => Laws.FixedBits.ldr _

/-- A slice that the mask keeps whole is the pattern's. -/
theorem slice_eq_of_match {w st k : Nat} {u mask pattern : BitVec w} (h : u &&& mask = pattern)
    (hk : mask.extractLsb' st k = BitVec.allOnes k) : u.extractLsb' st k = pattern.extractLsb' st k := by
  rw [← h, BitVec.extractLsb'_and, hk, BitVec.and_allOnes]

/-- A row whose mask keeps the class. -/
theorem decode_of_match_class (h : op &&& 0xF000#16 = p) :
    decode op = decodeFields (fieldC p) (fieldX op) (fieldY op) (fieldN op) (fieldKK op) (fieldNNN op) :=
  decode_of_fieldC (slice_eq_of_match h rfl)

/-- A row whose mask keeps the class and the low nibble. -/
theorem decode_of_match_nibble (h : op &&& 0xF00F#16 = p) :
    decode op = decodeFields (fieldC p) (fieldX op) (fieldY op) (fieldN p) (fieldKK op) (fieldNNN op) := by
  have hc : fieldC op = fieldC p := slice_eq_of_match h rfl
  have hn : fieldN op = fieldN p := slice_eq_of_match h rfl
  rw [decode_of_fieldC hc, hn]

/-- A row whose mask keeps the class and the low byte. -/
theorem decode_of_match_byte (h : op &&& 0xF0FF#16 = p) :
    decode op = decodeFields (fieldC p) (fieldX op) (fieldY op) (fieldN op) (fieldKK p) (fieldNNN op) := by
  have hc : fieldC op = fieldC p := slice_eq_of_match h rfl
  have hkk : fieldKK op = fieldKK p := slice_eq_of_match h rfl
  rw [decode_of_fieldC hc, hkk]

/-- A word that matches a row decodes to an instruction of that row, by what the row's mask keeps. -/
theorem exists_decode_of_match (h : op &&& i.row.mask = i.row.pattern) : ∃ j, decode op = .ok j ∧ j.row = i.row := by
  cases i
  case cls | ret =>
    obtain rfl := BitVec.and_allOnes.symm.trans h
    exact ⟨_, rfl, rfl⟩
  all_goals simp only [Instr.row] at h
  case jp | call | seImm | sneImm | ldImm | addImm | setIndex | jpr | rnd | drw =>
    exact ⟨_, decode_of_match_class h, rfl⟩
  case seReg | sneReg | ldReg | orReg | andReg | xorReg | addReg | subReg | shr | subnReg | shl =>
    exact ⟨_, decode_of_match_nibble h, rfl⟩
  case skp | sknp | getD | getK | setD | setS | addIndex | setCh | std | str | ldr =>
    exact ⟨_, decode_of_match_byte h, rfl⟩

/-- Every row of the list is the row of an instruction. -/
theorem exists_row_eq_of_mem {r : OpcodeRow} (hr : r ∈ opcodeRows) : ∃ i : Instr, i.row = r := by
  rcases List.mem_append.mp hr with h | h <;> obtain ⟨i, -, hi⟩ := List.mem_map.mp h <;> exact ⟨i, hi⟩

end Sys2Proof
end

section
/-! CLAIMS. The encoding (30_encoding). -/

namespace Sys2Proof

/-! ### Tier 3 -/

/-- Settles O2, from the round trip on words. -/
theorem decodeInvertsEncode : Obligations.DecodeInvertsEncode :=
  fun i _ => ⟨decode_encode i, decodeBytes_encodeBytes_append i⟩

/-! ### Tier 2 -/

/-- Settles O3, class by class. -/
theorem encodeInvertsDecode : Obligations.EncodeInvertsDecode := fun _ _ h => encode_of_decode h

/-- Settles O4: a word that matches a row decodes to an instruction of that row, so no second row can match it. -/
theorem decoderFollowsThePatternList : Obligations.DecoderFollowsThePatternList := by
  refine fun op => ⟨fun i hi => ?_, fun e he r hr hmatch => ?_⟩
  · obtain ⟨hmem, hbits⟩ := fixedBits i
    rw [encode_of_decode hi] at hbits
    refine ⟨hmem, hbits, fun r hr hmatch => ?_⟩
    obtain ⟨k, rfl⟩ := exists_row_eq_of_mem hr
    obtain ⟨j, hj, hrow⟩ := exists_decode_of_match hmatch
    cases hi.symm.trans hj
    exact hrow.symm
  · obtain ⟨k, rfl⟩ := exists_row_eq_of_mem hr
    obtain ⟨j, hj, -⟩ := exists_decode_of_match hmatch
    cases he.symm.trans hj

/-- Settles O5, class by class: what each class's own decoder rejects. -/
theorem illegalWordsAreTheListedOnes : Obligations.IllegalWordsAreTheListedOnes := by
  refine fun op => ⟨decode_eq_error_iff decode_eq_class0_iff, decode_eq_error_iff fun hc => ?_,
    decode_eq_error_iff fun hc => ?_, decode_eq_error_iff fun hc => ?_, decode_eq_error_iff fun hc => ?_,
    decode_eq_error_iff fun hc => ?_⟩
  · exact decode_of_class5 hc ▸ ite_ok_eq_error_iff.trans (and_iff_left rfl)
  · rw [decode_of_class8 hc, decodeClass8_eq_error_iff, not_mem_class8_iff]
    exact and_iff_left rfl
  · exact decode_of_class9 hc ▸ ite_ok_eq_error_iff.trans (and_iff_left rfl)
  · exact decode_of_classE hc ▸ decodeClassE_eq_error_iff.trans (and_iff_left rfl)
  · exact decode_of_classF hc ▸ decodeClassF_eq_error_iff.trans (and_iff_left rfl)

/-! ### Tier 1 -/

/-- Settles O1, word by word. -/
theorem writtenOutWordsDecode : Obligations.WrittenOutWordsDecode := by
  unfold Obligations.WrittenOutWordsDecode
  decide

end Sys2Proof
end

section
/-! SUPPORT. What the next step is, by the run state and the agent that moves (40_execution_cycle R80 to R87): the illegal word,
the waiting and the halted core, the key event; and the frame of a step while the core does not run. -/

namespace Sys2Proof.Machine

variable {s t u : State} {e : Illegal} {id : Nibble} {rest : List Move}

/-! ### The core's move -/

/-- Taking the core's move from the schedule leaves the word to be fetched as it is. -/
theorem fetch16_of_coreMoves (h : CoreMoves s u) : u.fetch16 u.pc.toNat = s.fetch16 s.pc.toNat := by
  rw [pc_of_coreMoves h, SameMemory.fetch16_eq (readMem_of_coreMoves h)]

/-- A running core whose next word matches no row enters the illegal-instruction handler with that word (R87). -/
theorem step_eq_illegal_of_decode (hu : CoreMoves s u) (hr : s.runState = .running) (hp : s.pc.toNat ≤ 0xFFE)
    (hd : decode (s.fetch16 s.pc.toNat) = .error e) : step s = .next (u.illegal (s.fetch16 s.pc.toNat)) := by
  have hguard : ¬Config.topFetch < u.pc.toNat := by rw [pc_of_coreMoves hu]; exact Nat.not_lt.mpr hp
  simp only [step_of_coreMoves hu, coreStep, runState_of_coreMoves hu, hr, runInstruction, if_neg hguard,
    fetch16_of_coreMoves hu, hd]

/-- The waiting core's own move changes nothing (R85; log entry 7). -/
theorem step_of_coreMoves_of_waiting (hu : CoreMoves s u) (hw : s.runState = .awaitingKey) : step s = .next u := by
  simp only [step_of_coreMoves hu, coreStep, runState_of_coreMoves hu, hw]

/-- The halted core has no step (R86; log entry 8). -/
theorem step_of_coreMoves_of_halted (hu : CoreMoves s u) (hh : s.runState = .halted) : step s = .fault .coreHalted := by
  simp only [step_of_coreMoves hu, coreStep, runState_of_coreMoves hu, hh]

/-! ### The key event -/

/-- When the host presents a key event next, the step is its presentation to the state with the move taken. -/
theorem step_of_keyEvent (h : s.schedule = .keyEvent id :: rest) :
    step s = .next ({ s with schedule := rest }.presentKey id) := by
  simp only [step, cycle, h, moveStep]

/-- A key event wakes the waiting core (R85). -/
theorem presentKey_of_waiting (hw : s.runState = .awaitingKey) (id : Nibble) : s.presentKey id = s.wakeUp id := by
  simp only [State.presentKey, hw]

/-- The wake-up writes the key's number to `V[key_dest]` (R85). -/
theorem State.wakeUp_getReg_keyDest (s : State) (id : Nibble) : ((s.wakeUp id).getReg s.keyDest).toNat = id.toNat := by
  have hkey : (s.wakeUp id).getReg s.keyDest = id.setWidth 8 := s.getReg_setReg_self s.keyDest _
  rw [hkey, BitVec.toNat_setWidth_of_le (by decide)]

/-- The wake-up changes `run_state`, `V[key_dest]` and `pc`, nothing else (R85). -/
theorem onlyRegsAndPc_wakeUp (s : State) (id : Nibble) :
    OnlyRegsAndPc [s.keyDest] { s with runState := .running } (s.wakeUp id) :=
  onlyRegsAndPc_setReg { s with runState := .running } s.keyDest (id.setWidth 8)

/-! ### A step while the core does not run -/

/-- The timers, the events, the key levels, the moves to come and the count of draws are not the core's. -/
theorem sameCore_with_inputs (s : State) (timers : Word) (events : List Event) (keyDown : BitVec 16) (schedule : List Move)
    (draws : Nat) :
    SameCore s { s with timers := timers, events := events, keyDown := keyDown, schedule := schedule, draws := draws } :=
  ⟨fun _ => rfl, fun _ _ => rfl, rfl⟩

theorem SameCore.runState_eq (h : SameCore s t) : t.runState = s.runState := by
  obtain ⟨-, -, ht⟩ := h
  rw [ht]

/-- A tick changes nothing the core owns, in any run state (R212, R216). -/
theorem sameCore_tick_of_timerMoves (h : TimerMoves s u) : SameCore s u.tick := by
  rw [State.tick_eq, eq_of_timerMoves h]
  exact sameCore_with_inputs s ..

/-- While the core does not run, a step changes what the core owns only when a key event wakes it or the host resets the
machine (R85, R86, R216). -/
theorem sameCore_of_step_of_not_running (hr : s.runState ≠ .running) (h : step s = .next t) :
    SameCore s t ∨ (s.runState = .awaitingKey ∧ ∃ id rest, s.schedule = .keyEvent id :: rest) ∨
      ∃ image straps rest, s.schedule = .reset image straps :: rest := by
  rcases step_cases h with ⟨u, ⟨rest, -, rfl⟩, hc⟩ | ⟨u, hu, rfl⟩ |
    ⟨rest, ⟨down, -, rfl⟩ | ⟨id, hs, rfl⟩ | ⟨image, straps, hs, -, -⟩⟩
  · rcases coreStep_cases hc with ⟨-, rfl⟩ | ⟨hrun, -⟩ | ⟨hrun, -⟩ | ⟨hrun, -⟩
    · exact .inl (sameCore_with_inputs s s.timers s.events s.keyDown rest s.draws)
    all_goals exact absurd hrun hr
  · exact .inl (sameCore_tick_of_timerMoves hu)
  · exact .inl (sameCore_with_inputs s s.timers s.events down rest s.draws)
  · by_cases hw : s.runState = .awaitingKey
    · exact .inr (.inl ⟨hw, id, rest, hs⟩)
    · rw [presentKey_of_not_waiting (s := { s with schedule := rest }) hw]
      exact .inl (sameCore_with_inputs s s.timers s.events s.keyDown rest s.draws)
  · exact .inr (.inr ⟨image, straps, rest, hs⟩)

/-! ### No instruction stops the model -/

/-- Every instruction answers a next state: the six that can fault take their fault as one (R83, R206). -/
theorem exists_exec_eq_next (i : Instr) (s : State) : ∃ t, exec i s = .next t := by
  cases i
  case ret => rcases execRet_cases s with ⟨-, h⟩ | ⟨a, sp, h, -⟩ <;> exact ⟨_, h⟩
  case call nnn => rcases execCall_cases s nnn with ⟨-, h⟩ | ⟨k, sp, h, -⟩ <;> exact ⟨_, h⟩
  case std x => rcases execStd_cases s x with ⟨-, h⟩ | ⟨m, -, -, h⟩ <;> exact ⟨_, h⟩
  case str x => rcases execStr_cases s x with ⟨-, h⟩ | ⟨m, -, -, h⟩ <;> exact ⟨_, h⟩
  case ldr x => rcases execLdr_cases s x with ⟨-, h⟩ | ⟨r, -, -, h⟩ <;> exact ⟨_, h⟩
  case drw x y n => rcases execDrw_cases s x y n with ⟨-, h⟩ | ⟨d, f, -, -, h⟩ <;> exact ⟨_, h⟩
  all_goals exact ⟨_, rfl⟩

end Sys2Proof.Machine
end

section
/-! CLAIMS. The execution cycle (40_execution_cycle). -/

namespace Sys2Proof.Machine

/-! ### Tier 2 -/

/-- Settles O10: a halted core is not woken, so only the reset is left. -/
theorem haltedStateIsFrozenUntilReset : Obligations.HaltedStateIsFrozenUntilReset := by
  intro s t hh h
  rcases sameCore_of_step_of_not_running (hh ▸ nofun) h with hsame | ⟨hw, -⟩ | hreset
  · exact .inl hsame
  · cases hh.symm.trans hw
  · exact .inr hreset

/-- Settles O9, agent by agent; that only a reset leaves `Halted` is read off the frozen state. -/
theorem haltedCoreHasNoStep : Obligations.HaltedCoreHasNoStep := by
  intro s hh
  refine ⟨fun u hu => step_of_coreMoves_of_halted hu hh, fun id rest hs => ?_, fun u hu => ⟨_, step_of_timerMoves hu⟩,
    fun t h => ?_⟩
  · rw [step_of_keyEvent hs, presentKey_of_not_waiting (hh ▸ nofun)]
  · exact (haltedStateIsFrozenUntilReset s t hh h).imp_left fun hsame => hsame.runState_eq.trans hh

/-- Settles O11: of the two ways out, a waiting core has both. -/
theorem waitingStateIsHeldUntilAKey : Obligations.WaitingStateIsHeldUntilAKey := by
  intro s t hw h
  rcases sameCore_of_step_of_not_running (hw ▸ nofun) h with hsame | ⟨-, hkey⟩ | hreset
  · exact .inl hsame
  · exact .inr (.inl hkey)
  · exact .inr (.inr hreset)

/-! ### Tier 1 -/

/-- Settles O6: the two bytes at `pc` are the word the core fetches. -/
theorem stepRunsTheDecodedInstruction : Obligations.StepRunsTheDecodedInstruction :=
  fun _ _ _ hu hr hp hd => step_eq_exec_of_decode hu hr hp hd

/-- Settles O7: the handler is a `raise` with the fetched word. -/
theorem unmatchedWordTakesIllegalOpcode : Obligations.UnmatchedWordTakesIllegalOpcode :=
  fun _ u _ hu hr hp hd => ⟨_, step_eq_illegal_of_decode hu hr hp hd, takesFault_raise u .illegalOpcode _⟩

/-- Settles O12: the step is the wake-up of the state with the move taken. -/
theorem keyEventWakesTheWaitingCore : Obligations.KeyEventWakesTheWaitingCore := by
  intro s id rest hw hs
  refine ⟨{ s with schedule := rest }.wakeUp id, ?_, State.wakeUp_getReg_keyDest _ id, rfl, rfl, onlyRegsAndPc_wakeUp _ id⟩
  rw [step_of_keyEvent hs, presentKey_of_waiting (s := { s with schedule := rest }) hw]

/-- Settles O13: the core's own move while it waits. -/
theorem waitingCoreHoldsWithoutAKey : Obligations.WaitingCoreHoldsWithoutAKey :=
  fun _ _ hw hu => step_of_coreMoves_of_waiting hu hw

/-- Settles O24, from the cases of the instructions that can fault. -/
theorem everyInstructionAnswersANextState : Obligations.EveryInstructionAnswersANextState := exists_exec_eq_next

end Sys2Proof.Machine
end

section
/-! SUPPORT. The control transfers case by case (41_flow R100 to R108): the return stack at its two ends, the jump to a 12-bit
address, and the six skips as one primitive with a condition on the registers and the key levels. -/

namespace Sys2Proof.Machine

variable {i : Instr} {s : State} {P : Prop} [Decidable P]

/-! ### The return stack -/

/-- `RET` on an empty stack takes its fault (R100, R202). -/
theorem exec_ret_of_empty (h : s.sp.val = 0) : exec .ret s = .next (s.raise .stackUnderflow 0x00EE#16) := by
  rcases execRet_cases s with ⟨-, hret⟩ | ⟨a, sp, -, hsp, -⟩
  · exact hret
  · omega

/-- `RET` above entry `j` sends it to `pc` and leaves `j` entries (R100). -/
theorem exec_ret_of_entry {j : Fin 16} (h : s.sp.val = j.val + 1) :
    ∃ sp : Fin 17, sp.val = j.val ∧ exec .ret s = .next { s with sp := sp, pc := s.stack[j.val] } := by
  rcases execRet_cases s with ⟨hempty, -⟩ | ⟨a, sp, hret, hsp, ha⟩
  · omega
  · have hj : j.val = sp.val := by omega
    exact ⟨sp, hj.symm, ha j hj ▸ hret⟩

/-- `CALL` on a full stack takes its fault (R102, R201). -/
theorem exec_call_of_full (nnn : Addr12) (h : s.sp.val = 16) :
    exec (.call nnn) s = .next (s.raise .stackOverflow (formatAddr 0x2#4 nnn)) := by
  rcases execCall_cases s nnn with ⟨-, hcall⟩ | ⟨k, sp, -, hroom, -⟩
  · exact hcall
  · omega

/-- `CALL` with `j < 16` entries puts `pc + 2` at entry `j`, keeps the others and jumps (R102). -/
theorem exec_call_of_room (nnn : Addr12) {j : Fin 16} (h : s.sp.val = j.val) :
    ∃ (k : Vector Word 16) (sp : Fin 17), sp.val = j.val + 1 ∧
      (∀ l : Fin 16, k[l.val] = if l = j then s.pc + 2 else s.stack[l.val]) ∧
      exec (.call nnn) s = .next { s with stack := k, sp := sp, pc := nnn.setWidth 16 } := by
  rcases execCall_cases s nnn with ⟨hfull, -⟩ | ⟨k, sp, hcall, -, hsp, hk⟩
  · omega
  · rw [h] at hsp hk
    exact ⟨k, sp, hsp, fun l => by rw [hk l]; simp only [Fin.ext_iff], hcall⟩

/-! ### Jumps -/

/-- A 12-bit address keeps its value in `pc`. -/
theorem toNat_address (a : Addr12) : (a.setWidth 16).toNat = a.toNat := BitVec.toNat_setWidth_of_le (by decide)

/-- What a jump to a 12-bit address does; of all of them only 0xFFF cannot be fetched from (R101, R46). -/
theorem jump_completes {a : Addr12} (h : exec i s = .next (s.setPc (a.setWidth 16))) :
    ∃ t, exec i s = .next t ∧ t.pc.toNat = a.toNat ∧ (t.pc.toNat = 0xFFF → NextFetchFaults t) ∧ OnlyPc s t :=
  ⟨_, h, toNat_address a, fun htop => nextFetchFaults (by omega), onlyPc_setPc s _⟩

/-- The 12-bit sum of an address and a byte is the sum modulo 4096 (R107). -/
theorem toNat_address_add_byte (a : Addr12) (b : Byte) : (a + b.setWidth 12).toNat = (a.toNat + b.toNat) % 4096 := by
  rw [BitVec.toNat_add, BitVec.toNat_setWidth_of_le (by decide)]

/-! ### Skips -/

/-- What a skip does (R108, R46). -/
theorem skip_completes {c : Bool} (h : exec i s = .next (s.skip c)) :
    ∃ t, exec i s = .next t ∧ t.pc = s.pc + (if c then 4 else 2) ∧ OnlyPc s t ∧ (0xFFE < t.pc.toNat → NextFetchFaults t) :=
  ⟨_, h, rfl, onlyPc_setPc s _, nextFetchFaults⟩

/-- The frame of a skip whose condition is a proposition. -/
theorem skip_decide_completes (h : exec i s = .next (s.skip (decide P))) :
    ∃ t, exec i s = .next t ∧ t.pc = s.pc + (if P then 4 else 2) ∧ OnlyPc s t := by
  obtain ⟨t, ht, hpc, hframe, -⟩ := skip_completes h
  simp only [decide_eq_true_eq] at hpc
  exact ⟨t, ht, hpc, hframe⟩

/-- The key number of `SKP` and `SKNP` is the low nibble of the register (R63). -/
theorem State.lowNibble_toNat (s : State) (x : Nibble) : (s.lowNibble x).toNat = (s.getReg x).toNat % 16 := by
  simp only [State.lowNibble, BitVec.extractLsb'_toNat, Nat.shiftRight_zero]

theorem exec_seImm (x : Nibble) (kk : Byte) (s : State) :
    exec (.seImm x kk) s = .next (s.skip (decide (s.getReg x = kk))) := rfl

theorem exec_sneImm (x : Nibble) (kk : Byte) (s : State) :
    exec (.sneImm x kk) s = .next (s.skip (decide (s.getReg x ≠ kk))) := by
  rw [decide_not]; rfl

theorem exec_seReg (x y : Nibble) (s : State) :
    exec (.seReg x y) s = .next (s.skip (decide (s.getReg x = s.getReg y))) := rfl

theorem exec_sneReg (x y : Nibble) (s : State) :
    exec (.sneReg x y) s = .next (s.skip (decide (s.getReg x ≠ s.getReg y))) := by
  rw [decide_not]; rfl

theorem exec_skp (x : Nibble) (s : State) :
    exec (.skp x) s = .next (s.skip (s.keyDown.getLsbD ((s.getReg x).toNat % 16))) := by
  rw [← s.lowNibble_toNat]; rfl

theorem exec_sknp (x : Nibble) (s : State) :
    exec (.sknp x) s = .next (s.skip (!s.keyDown.getLsbD ((s.getReg x).toNat % 16))) := by
  rw [← s.lowNibble_toNat]; rfl

end Sys2Proof.Machine
end

section
/-! CLAIMS. Control flow (41_flow). -/

namespace Sys2Proof.Machine

/-! ### Tier 2 -/

/-- Settles O29, at an entry and on the empty stack. -/
theorem retPopsTheStackIntoPc : Obligations.RetPopsTheStackIntoPc := by
  refine ⟨decode_encode .ret, fun s => ⟨fun i hi => ?_, fun hempty => ?_⟩⟩
  · obtain ⟨sp, hsp, hret⟩ := exec_ret_of_entry hi
    exact ⟨_, hret, hsp, rfl, nextFetchFaults, fun _ => rfl, fun _ _ => rfl, rfl⟩
  · exact ⟨_, exec_ret_of_empty hempty, takesFault_raise s ..⟩

/-- Settles O31, with room and on the full stack. -/
theorem callPushesAndJumps : Obligations.CallPushesAndJumps := by
  refine fun nnn s => ⟨decode_encode (.call nnn), fun i hi => ?_, fun hfull => ?_⟩
  · obtain ⟨k, sp, hsp, hk, hcall⟩ := exec_call_of_room nnn hi
    exact ⟨_, hcall, hsp, (hk i).trans (if_pos rfl), fun j hj => (hk j).trans (if_neg hj), toNat_address nnn,
      fun _ => rfl, fun _ _ => rfl, rfl⟩
  · exact ⟨_, exec_call_of_full nnn hfull, takesFault_raise s ..⟩

/-- Settles O36: a state with the same registers and key levels gives each skip the same condition, so `s` and any such `u`
are two cases of one equation. -/
theorem skipsNeverReadTheSkippedWord : Obligations.SkipsNeverReadTheSkippedWord := by
  intro x y kk s p hp
  have hskip (u : State) (hregs : ∀ z, u.getReg z = s.getReg z) (hkeys : u.keyDown = s.keyDown) :
      exec p.1 u = .next (u.skip p.2) := by
    simp only [List.mem_cons, List.not_mem_nil, or_false] at hp
    rcases hp with rfl | rfl | rfl | rfl | rfl | rfl
    · rw [exec_seImm, hregs]
    · rw [exec_sneImm, hregs]
    · rw [exec_seReg, hregs, hregs]
    · rw [exec_sneReg, hregs, hregs]
    · rw [exec_skp, hregs, hkeys]
    · rw [exec_sknp, hregs, hkeys]
  exact ⟨skip_completes (hskip s (fun _ => rfl) rfl), hskip⟩

/-! ### Tier 1 -/

/-- Settles O30: the jump to the address in the word. -/
theorem jpSetsPc : Obligations.JpSetsPc := by
  refine fun nnn s => ⟨decode_encode (.jp nnn), ?_⟩
  obtain ⟨t, hjump, hpc, hfault, hframe⟩ := jump_completes (i := .jp nnn) (s := s) (a := nnn) rfl
  exact ⟨t, hjump, hpc, fun htop => hfault (hpc.trans htop), hframe⟩

/-- Settles O33: both are skips, on the two sides of one comparison. -/
theorem skipsOnAnImmediate : Obligations.SkipsOnAnImmediate := fun x kk s =>
  ⟨decode_encode (.seImm x kk), decode_encode (.sneImm x kk), skip_decide_completes (exec_seImm x kk s),
    skip_decide_completes (exec_sneImm x kk s)⟩

/-- Settles O34; a nonzero low nibble is what classes 5 and 9 reject. -/
theorem skipsOnARegister : Obligations.SkipsOnARegister := by
  refine fun x y s => ⟨decode_encode (.seReg x y), decode_encode (.sneReg x y), fun n hn => ?_,
    skip_decide_completes (exec_seReg x y s), skip_decide_completes (exec_sneReg x y s)⟩
  have hfield (c : Nibble) : fieldN (formatXY c x y n) ≠ 0x0#4 := by rwa [fieldN_formatXY]
  exact ⟨(decode_of_class5 (fieldC_formatXY ..)).trans (if_neg (hfield _)),
    (decode_of_class9 (fieldC_formatXY ..)).trans (if_neg (hfield _))⟩

/-- Settles O35: the jump to the 12-bit sum. -/
theorem jprAddsV0Modulo4096 : Obligations.JprAddsV0Modulo4096 := by
  refine fun nnn s => ⟨decode_encode (.jpr nnn), ?_⟩
  obtain ⟨t, hjump, hpc, hframe⟩ := jump_completes (i := .jpr nnn) (s := s) (a := nnn + (s.getReg 0x0#4).setWidth 12) rfl
  exact ⟨t, hjump, hpc.trans (toNat_address_add_byte ..), hframe⟩

end Sys2Proof.Machine
end

section
/-! SUPPORT. The register and arithmetic instructions as two kinds (42_alu R120 to R132): a write of the destination alone, and
a result with its flag; then the results and the flags of R126 to R130 as numbers. -/

namespace Sys2Proof.Machine

variable {i : Instr} {s : State} {x : Nibble} {v r f : Byte}

/-! ### The two kinds -/

/-- What a write of the destination alone does (R120 to R125). -/
theorem setReg_completes (h : exec i s = .next (s.setReg x v).advance) :
    ∃ t, exec i s = .next t ∧ t.getReg x = v ∧ t.pc = s.pc + 2 ∧ OnlyRegsAndPc [x] s t :=
  ⟨_, h, s.getReg_setReg_self x v, rfl, onlyRegsAndPc_setReg s x v⟩

/-- What a result with its flag does: with `x = F` the flag is what is left (R132). -/
theorem setResultAndFlag_completes (h : exec i s = .next (s.setResultAndFlag x r f).advance) :
    ∃ t, exec i s = .next t ∧ (x ≠ VF → t.getReg x = r) ∧ t.getReg VF = f ∧ t.pc = s.pc + 2 ∧ OnlyRegsAndPc [x, VF] s t := by
  have hreg (z : Nibble) := s.getReg_setResultAndFlag x z r f
  exact ⟨_, h, fun hx => (hreg x).trans (by rw [if_neg hx, if_pos rfl]), (hreg VF).trans (if_pos rfl), rfl,
    onlyRegsAndPc_setResultAndFlag s x r f⟩

/-! ### Results -/

/-- The difference of two bytes is the difference modulo 256 (R127, R133). -/
theorem toNat_byte_sub (a b : Byte) : (a - b).toNat = (a.toNat + 256 - b.toNat) % 256 := by bv_omega

theorem toNat_byte_shiftRight_one (a : Byte) : (a >>> 1).toNat = a.toNat / 2 := by
  rw [BitVec.toNat_ushiftRight, Nat.shiftRight_eq_div_pow, pow_one]

theorem toNat_byte_shiftLeft_one (a : Byte) : (a <<< 1).toNat = 2 * a.toNat % 256 := by
  rw [BitVec.toNat_shiftLeft, Nat.shiftLeft_eq, pow_one, Nat.mul_comm]

/-- A masked byte has no bit outside the mask (R131). -/
theorem byte_and_mask_and_not_mask (b mask : Byte) : b &&& mask &&& ~~~mask = 0 := by
  rw [BitVec.and_assoc, BitVec.and_not_self]
  exact BitVec.and_zero

/-! ### Flags -/

theorem flagByte_decide (P : Prop) [Decidable P] : flagByte (decide P) = if P then 0x01#8 else 0x00#8 := by
  simp only [flagByte, decide_eq_true_eq]

/-- A flag that copies bit `j` of a byte, as a number (R129, R130). -/
theorem toNat_flagByte_getLsbD (a : Byte) (j : Nat) : (flagByte (a.getLsbD j)).toNat = a.toNat / 2 ^ j % 2 := by
  have hflag (b : Bool) : (flagByte b).toNat = b.toNat := by cases b <;> rfl
  rw [hflag, BitVec.getLsbD, Nat.toNat_testBit]

theorem toNat_shiftedOutLow (a : Byte) : (shiftedOutLow a).toNat = a.toNat % 2 := by
  rw [shiftedOutLow, toNat_flagByte_getLsbD, pow_zero, Nat.div_one]

theorem toNat_shiftedOutHigh (a : Byte) : (shiftedOutHigh a).toNat = a.toNat / 128 := by
  have hbyte : a.toNat < 256 := a.isLt
  rw [shiftedOutHigh, toNat_flagByte_getLsbD]
  omega

/-! ### Subtraction -/

/-- What a subtraction does, whichever register holds its minuend (R127, R128). -/
theorem difference_completes {a b : Byte} (h : exec i s = .next (s.setResultAndFlag x (a - b) (noBorrowFlag a b)).advance) :
    ∃ t, exec i s = .next t ∧ (x ≠ VF → (t.getReg x).toNat = (a.toNat + 256 - b.toNat) % 256) ∧
      t.getReg VF = (if b.toNat ≤ a.toNat then 0x01 else 0x00) ∧ t.pc = s.pc + 2 ∧ OnlyRegsAndPc [x, VF] s t := by
  obtain ⟨t, hsub, hdiff, hborrow, hrest⟩ := setResultAndFlag_completes h
  exact ⟨t, hsub, fun hx => hdiff hx ▸ toNat_byte_sub a b, hborrow.trans (flagByte_decide _), hrest⟩

end Sys2Proof.Machine
end

section
/-! CLAIMS. The register and arithmetic instructions (42_alu). -/

namespace Sys2Proof.Machine

/-! ### Tier 2 -/

/-- Settles O39: a sum and its carry. -/
theorem addSetsCarry : Obligations.AddSetsCarry := by
  refine fun x y s => ⟨decode_encode (.addReg x y), ?_⟩
  obtain ⟨t, hadd, hsum, hcarry, hrest⟩ := setResultAndFlag_completes (i := .addReg x y) (s := s) rfl
  exact ⟨t, hadd, fun hx => hsum hx ▸ BitVec.toNat_add .., hcarry.trans (flagByte_decide _), hrest⟩

/-- Settles O40: the difference with `V[x]` as the minuend. -/
theorem subSetsNoBorrow : Obligations.SubSetsNoBorrow := fun x y _ =>
  ⟨decode_encode (.subReg x y), difference_completes rfl⟩

/-- Settles O41: the difference with `V[y]` as the minuend. -/
theorem subnSetsNoBorrow : Obligations.SubnSetsNoBorrow := fun x y _ =>
  ⟨decode_encode (.subnReg x y), difference_completes rfl⟩

/-- Settles O42: to the right and to the left. -/
theorem shiftsByOne : Obligations.ShiftsByOne := by
  refine fun x y s => ⟨decode_encode (.shr x y), decode_encode (.shl x y), ?_, ?_⟩
  · obtain ⟨t, hshr, hhalf, hbit, hrest⟩ := setResultAndFlag_completes (i := .shr x y) (s := s) rfl
    exact ⟨t, hshr, fun hx => hhalf hx ▸ toNat_byte_shiftRight_one _, hbit ▸ toNat_shiftedOutLow _, hrest⟩
  · obtain ⟨t, hshl, hdouble, hbit, hrest⟩ := setResultAndFlag_completes (i := .shl x y) (s := s) rfl
    exact ⟨t, hshl, fun hx => hdouble hx ▸ toNat_byte_shiftLeft_one _, hbit ▸ toNat_shiftedOutHigh _, hrest⟩

/-! ### Tier 1 -/

/-- Settles O37: both write the destination alone. -/
theorem immediateLoadsAndAdds : Obligations.ImmediateLoadsAndAdds := by
  refine fun x kk s => ⟨decode_encode (.ldImm x kk), decode_encode (.addImm x kk), setReg_completes rfl, ?_⟩
  obtain ⟨t, hadd, hsum, hrest⟩ := setReg_completes (i := .addImm x kk) (s := s) rfl
  exact ⟨t, hadd, hsum ▸ BitVec.toNat_add .., hrest⟩

/-- Settles O38: all four write the destination alone. -/
theorem copyAndBitwise : Obligations.CopyAndBitwise := fun x y _ =>
  ⟨decode_encode (.ldReg x y), decode_encode (.orReg x y), decode_encode (.andReg x y), decode_encode (.xorReg x y),
    setReg_completes rfl, setReg_completes rfl, setReg_completes rfl, setReg_completes rfl⟩

/-- Settles O43: the byte drawn and masked is written to the state with the draw counted. -/
theorem rndKeepsWithinTheMask : Obligations.RndKeepsWithinTheMask := by
  refine fun x kk s => ⟨decode_encode (.rnd x kk), ?_⟩
  have hreg := { s with draws := s.draws + 1 }.getReg_setReg_self x (Config.randomByte s.draws &&& kk)
  exact ⟨_, _, rfl, hreg, (congrArg (· &&& ~~~kk) hreg).trans (byte_and_mask_and_not_mask _ kk), rfl, onlyRegsAndPc_setReg _ x _⟩

end Sys2Proof.Machine
end

section
/-! SUPPORT. The index register and memory instructions (43_index_memory R140 to R146): a write of `I` alone and the values
written as numbers, what a block of bytes stored at `I` leaves in memory, and what `STR` leaves in `I`. -/

namespace Sys2Proof.Machine

variable {i : Instr} {s t : State} {x : Nibble} {v : Word} {bs : List Byte} {a n : Nat}

/-! ### The index register -/

/-- What a write of `I` alone does (R140 to R142). -/
theorem setIndex_completes (h : exec i s = .next (s.setIndex v).advance) (hv : v.toNat = n) :
    ∃ t, exec i s = .next t ∧ t.index.toNat = n ∧ t.pc = s.pc + 2 ∧ OnlyIndexAndPc s t :=
  ⟨_, h, hv, rfl, onlyIndexAndPc_setIndex s v⟩

/-- `I` plus a register is the sum modulo 65536 (R141). -/
theorem toNat_index_add_byte (w : Word) (b : Byte) : (w + b.setWidth 16).toNat = (w.toNat + b.toNat) % 65536 := by
  rw [BitVec.toNat_add, BitVec.toNat_setWidth_of_le (by decide)]

/-- The address of a font glyph; the product does not wrap (R142). -/
theorem State.toNat_glyphAddress (s : State) (x : Nibble) : (s.glyphAddress x).toNat = (s.getReg x).toNat % 16 * 5 := by
  have hglyph : (s.lowNibble x).toNat < 16 := (s.lowNibble x).isLt
  rw [State.glyphAddress, BitVec.toNat_mul, BitVec.toNat_setWidth_of_le (by decide), ← s.lowNibble_toNat]
  exact Nat.mod_eq_of_lt (show (s.lowNibble x).toNat * 5 < 65536 by omega)

/-! ### A block of bytes at `I` -/

/-- The byte `j` of a block stored at `I` (R42). -/
theorem State.read_storeBlock (s : State) {j : Nat} (hj : j < bs.length) :
    Store.read resetByte (storeBytes s.mem (s.indexed 0) bs) (s.indexed j) = bs[j] := by
  rw [read_storeBytes, dif_pos (by simp only [State.indexed]; omega)]
  simp only [State.indexed, Nat.add_zero, Nat.add_sub_cancel_left]

/-- A block of `n + 1` bytes stored at `I` leaves every byte outside `I` to `I + n` (R44). -/
theorem State.read_storeBlock_outside (s : State) (hlen : bs.length = n + 1) (ha : a < s.indexed 0 ∨ s.indexed n < a) :
    Store.read resetByte (storeBytes s.mem (s.indexed 0) bs) a = s.readMem a := by
  rw [read_storeBytes, dif_neg (by simp only [State.indexed] at *; omega)]
  rfl

/-- The digits stored at `I`, hundreds first, as numbers: none is reduced modulo 256 (R143). -/
theorem State.toNat_read_storeDigits (s : State) (b : Byte) :
    let m := storeBytes s.mem (s.indexed 0) (bcdDigits b)
    (Store.read resetByte m (s.indexed 0)).toNat = b.toNat / 100 ∧
      (Store.read resetByte m (s.indexed 1)).toNat = b.toNat / 10 % 10 ∧
      (Store.read resetByte m (s.indexed 2)).toNat = b.toNat % 10 := by
  have hbyte : b.toNat < 256 := b.isLt
  have hdigit {j : Nat} (hj : j < 3) := s.read_storeBlock (bs := bcdDigits b) (j := j) hj
  refine ⟨?_, ?_, ?_⟩ <;> rw [hdigit (by decide)] <;> exact Nat.mod_eq_of_lt (by omega)

/-! ### What `STR` leaves in `I` -/

/-- `I` after an `STR` that succeeds (R144). -/
theorem index_of_exec_str (hx : s.indexed x.toNat ≤ 0xFFF) (h : exec (.str x) s = .next t) : t.index = s.indexAfterBlock x := by
  rcases execStr_cases s x with ⟨hout, -⟩ | ⟨m, -, -, h'⟩
  · exact absurd hx hout.not_ge
  · cases h'.symm.trans h
    rfl

end Sys2Proof.Machine
end

section
/-! CLAIMS. The index register and memory (43_index_memory). -/

namespace Sys2Proof.Machine

/-! ### Tier 2 -/

/-- Settles O45, on the two sides of the limit: the digits are the block at `I`. -/
theorem stdStoresTheDecimalDigits : Obligations.StdStoresTheDecimalDigits := by
  refine fun x s => ⟨decode_encode (.std x), ?_⟩
  rcases execStd_cases s x with ⟨hout, hfault⟩ | ⟨m, hin, rfl, hstd⟩
  · exact ⟨fun hin => absurd hin hout.not_ge, fun _ => ⟨_, hfault, takesFault_raise s ..⟩⟩
  · obtain ⟨hhundreds, htens, hones⟩ := s.toNat_read_storeDigits (s.getReg x)
    exact ⟨fun _ => ⟨_, hstd, hhundreds, htens, hones, fun _ => s.read_storeBlock_outside rfl, rfl, fun _ _ => rfl, rfl⟩,
      fun hout => absurd hin hout.not_ge⟩

/-- Settles O46, on the two sides of the limit: the registers are the block at `I`. -/
theorem strStoresTheRegisters : Obligations.StrStoresTheRegisters := by
  refine fun x s => ⟨decode_encode (.str x), ?_⟩
  rcases execStr_cases s x with ⟨hout, hfault⟩ | ⟨m, hin, rfl, hstr⟩
  · exact ⟨fun hin => absurd hin hout.not_ge, fun _ => ⟨_, hfault, takesFault_raise s ..⟩⟩
  · have hframe (a : Nat) := s.read_storeBlock_outside (a := a) (s.length_regBlock x)
    exact ⟨fun _ => ⟨_, hstr, read_regBlock s x, hframe, s.indexAfterBlock_toNat x, rfl, fun _ _ => rfl, rfl⟩,
      fun hout => absurd hin hout.not_ge⟩

/-- Settles O47, on the two sides of the limit. -/
theorem ldrLoadsTheRegisters : Obligations.LdrLoadsTheRegisters := by
  refine fun x s => ⟨decode_encode (.ldr x), ?_⟩
  rcases execLdr_cases s x with ⟨hout, hfault⟩ | ⟨r, hin, hregs, hldr⟩
  · exact ⟨fun hin => absurd hin hout.not_ge, fun _ => ⟨_, hfault, takesFault_raise s ..⟩⟩
  · exact ⟨fun _ => ⟨_, hldr, hregs, s.indexAfterBlock_toNat x, rfl, fun _ => rfl, rfl⟩,
      fun hout => absurd hin hout.not_ge⟩

/-- Settles O48: the `LDR` reads the addresses the `STR` wrote, and both move `I` from the same value in the same mode. -/
theorem ldrRestoresWhatStrStored : Obligations.LdrRestoresWhatStrStored := by
  intro x s t u hin hstr hmem hindex hmode
  have haddr (j : Nat) : u.indexed j = s.indexed j := congrArg (·.toNat + j) hindex
  have hafter : u.indexAfterBlock x = s.indexAfterBlock x := by simp only [State.indexAfterBlock, hindex, hmode]
  rcases execLdr_cases u x with ⟨hout, -⟩ | ⟨r, -, hregs, hldr⟩
  · exact absurd hin (haddr x.toNat ▸ hout).not_ge
  · refine ⟨_, hldr, fun z hz => ?_, hafter.trans (index_of_exec_str hin hstr).symm, fun hsuper => ?_⟩
    · calc r[z.toNat]'z.isLt
        _ = u.readMem (u.indexed z.toNat) := (hregs z).trans (if_pos hz)
        _ = t.readMem (s.indexed z.toNat) := by rw [haddr, hmem]
        _ = s.getReg z := readMem_of_exec_str hin hstr hz
    · exact hafter.trans ((s.indexAfterBlock_cases x).resolve_right (Bool.eq_false_iff.mp hsuper))

/-! ### Tier 1 -/

/-- Settles O44: all three write `I` alone. -/
theorem indexInstructions : Obligations.IndexInstructions := fun nnn x s =>
  ⟨decode_encode (.setIndex nnn), decode_encode (.addIndex x), decode_encode (.setCh x),
    setIndex_completes rfl (toNat_address nnn), setIndex_completes rfl (toNat_index_add_byte s.index (s.getReg x)),
    setIndex_completes rfl (s.toNat_glyphAddress x)⟩

end Sys2Proof.Machine
end

section
/-! SUPPORT. The display instructions (44_display R160 to R168): who raises an event, and one sprite draw as the pixels under
its visible 1 bits. -/

namespace Sys2Proof.Machine

variable {i : Instr} {x y n : Nibble} {X Y rows bpr : Nat} {vx vy : Byte} {s t : State}

/-! ### Events -/

/-- An event comes only from `CLS` and `DRW`: one display update with the buffer as it stands afterwards (R167). -/
theorem exec_event_writers (h : exec i s = .next t) :
    t.events = s.events ∨
      ((i = .cls ∨ ∃ x y n, i = .drw x y n) ∧ t.events = s.events ++ [.displayUpdate t.display s.width s.height]) := by
  cases effect_of_exec h with
  | cls => exact .inr ⟨.inl rfl, rfl⟩
  | drw => exact .inr ⟨.inr ⟨_, _, _, rfl⟩, rfl⟩
  | _ => exact .inl rfl

/-- The clear buffer of any geometry is all 0x00. -/
theorem displayBytes_clear (w h : Nat) : displayBytes [] w h = List.replicate (w * h) 0x00 :=
  List.map_const'.trans (by rw [List.length_range]; rfl)

/-! ### The pixels a sprite covers -/

/-- Some offset the sprite toggles has `P` when some pixel of the geometry that it covers has. -/
theorem exists_mem_spriteOffsets_iff {P : Nat → Prop} :
    (∃ o ∈ s.spriteOffsets vx vy (rows, bpr), P o) ↔
      ∃ X Y, X < s.width ∧ Y < s.height ∧ SpriteCovers s vx vy rows bpr X Y ∧ P (s.pixelOffset X Y) := by
  constructor
  · rintro ⟨o, ho, hP⟩
    obtain ⟨r, c, X, -, -, -, hcolumn, rfl⟩ := s.mem_spriteOffsets.mp ho
    have hX : X < s.width := s.spriteColumn_lt hcolumn
    exact ⟨X, _, hX, Nat.mod_lt _ s.height_pos, (pixelOffset_mem_spriteOffsets s hX).mp ho, hP⟩
  · rintro ⟨X, Y, hX, -, hcovers, hP⟩
    exact ⟨_, (pixelOffset_mem_spriteOffsets s hX).mpr hcovers, hP⟩

/-- The sprite of `DRW Vx,Vy,n` executed in `s` covers pixel `(X, Y)`. -/
def DrwCovers (x y n : Nibble) (s : State) (X Y : Nat) : Prop :=
  SpriteCovers s (s.getReg x) (s.getReg y) (spriteRows s n) (spriteRowBytes s n) X Y

/-! ### One draw -/

/-- The offsets `DRW Vx,Vy,n` toggles, in order. -/
def State.drwOffsets (s : State) (x y n : Nibble) : List Nat :=
  s.spriteOffsets (s.getReg x) (s.getReg y) (spriteRows s n, spriteRowBytes s n)

/-- The state after a `DRW Vx,Vy,n` whose sprite exists (R163): the pixels, then `VF`, then the event. -/
def State.drawSprite (s : State) (x y n : Nibble) : State :=
  let drawn := toggleAll s.display (s.drwOffsets x y n)
  ({ s with display := drawn.1 }.setReg VF (flagByte drawn.2)).emitDisplayUpdate.advance

theorem exec_drw_of_fits (x y : Nibble) (h : SpriteFits s n) : exec (.drw x y n) s = .next (s.drawSprite x y n) := by
  simp only [exec, execDrw, spriteShape_eq]
  exact if_pos ((spriteFits_iff s n).mp h)

theorem exec_drw_of_not_fits (x y : Nibble) (h : ¬SpriteFits s n) :
    exec (.drw x y n) s = .next (s.raise .addressOutOfRange (formatXY 0xD#4 x y n)) := by
  simp only [exec, execDrw, spriteShape_eq]
  exact if_neg (mt (spriteFits_iff s n).mpr h)

theorem State.nodup_drwOffsets (s : State) (x y n : Nibble) : (s.drwOffsets x y n).Nodup := spriteOffsets_shape_nodup s _ _ n

/-- A covered pixel is toggled (R163, R166). -/
theorem State.pixel_drawSprite_of_covers (hX : X < s.width) (h : DrwCovers x y n s X Y) :
    (s.drawSprite x y n).pixel X Y = s.pixel X Y ^^^ 0xFF :=
  (read_toggleAll (s.nodup_drwOffsets x y n) _).trans (if_pos ((pixelOffset_mem_spriteOffsets s hX).mpr h))

/-- A pixel that is not covered is as before (R163). -/
theorem State.pixel_drawSprite_of_not_covers (hX : X < s.width) (h : ¬DrwCovers x y n s X Y) :
    (s.drawSprite x y n).pixel X Y = s.pixel X Y :=
  (read_toggleAll (s.nodup_drwOffsets x y n) _).trans (if_neg (mt (pixelOffset_mem_spriteOffsets s hX).mp h))

theorem State.getReg_VF_drawSprite (s : State) (x y n : Nibble) :
    (s.drawSprite x y n).getReg VF = flagByte (toggleAll s.display (s.drwOffsets x y n)).2 := State.getReg_setReg_self _ VF _

/-- A draw writes no register but `VF`. -/
theorem State.getReg_drawSprite (x y n : Nibble) {z : Nibble} (h : z ≠ VF) : (s.drawSprite x y n).getReg z = s.getReg z :=
  State.getReg_setReg_of_ne _ h _

theorem flagByte_eq_one_iff {b : Bool} : flagByte b = 0x01 ↔ b = true := by cases b <;> decide

/-- `VF` is 1 after a draw when a covered pixel was set before it (R163, R166). -/
theorem State.getReg_VF_drawSprite_eq_one_iff : (s.drawSprite x y n).getReg VF = 0x01 ↔
    ∃ X Y, X < s.width ∧ Y < s.height ∧ DrwCovers x y n s X Y ∧ s.pixel X Y = 0xFF := by
  rw [s.getReg_VF_drawSprite, flagByte_eq_one_iff, toggleAll_collision (s.nodup_drwOffsets x y n)]
  exact exists_mem_spriteOffsets_iff

/-! ### No rows -/

/-- `SpriteShape(0)` with `is_super = 0` has no rows (R164). -/
theorem spriteRows_zero (h : s.isSuper = false) : spriteRows s 0x0#4 = 0 := by rw [spriteRows, if_pos rfl, h]; rfl

/-- A sprite of no rows has no byte whose address could be missing (R164). -/
theorem spriteFits_of_no_rows (h : spriteRows s n = 0) : SpriteFits s n := .inl (by rw [h, Nat.zero_mul])

theorem State.drwOffsets_of_no_rows (x y : Nibble) (h : spriteRows s n = 0) : s.drwOffsets x y n = [] := by
  rw [State.drwOffsets, h]; rfl

/-! ### The same draw again -/

/-- A draw moves nothing its sprite is read from, unless a coordinate is in `VF`. -/
theorem drwCovers_drawSprite_iff (hx : x ≠ VF) (hy : y ≠ VF) :
    DrwCovers x y n (s.drawSprite x y n) X Y ↔ DrwCovers x y n s X Y := by
  rw [DrwCovers, State.getReg_drawSprite x y n hx, State.getReg_drawSprite x y n hy]
  rfl

/-- Toggled twice, a pixel is as before. -/
theorem toggle_toggle (b : Byte) : b ^^^ 0xFF ^^^ 0xFF = b := by rw [BitVec.xor_assoc, BitVec.xor_self, BitVec.xor_zero]

/-- A toggled pixel is set when it was unset before. -/
theorem toggle_eq_set_iff (b : Byte) : b ^^^ 0xFF = 0xFF ↔ b = 0x00 := by
  constructor
  · intro h
    rw [← toggle_toggle b, h]; rfl
  · rintro rfl; rfl

/-- The same draw again restores every pixel (R168). -/
theorem State.pixel_drawSprite_twice (hx : x ≠ VF) (hy : y ≠ VF) (hX : X < s.width) :
    ((s.drawSprite x y n).drawSprite x y n).pixel X Y = s.pixel X Y := by
  have hX' : X < (s.drawSprite x y n).width := hX
  by_cases hc : DrwCovers x y n s X Y
  · rw [pixel_drawSprite_of_covers hX' ((drwCovers_drawSprite_iff hx hy).mpr hc), pixel_drawSprite_of_covers hX hc,
      toggle_toggle]
  · rw [pixel_drawSprite_of_not_covers hX' (mt (drwCovers_drawSprite_iff hx hy).mp hc), pixel_drawSprite_of_not_covers hX hc]

/-- The same draw again collides when the sprite covers a pixel unset before the first (R168). -/
theorem State.getReg_VF_drawSprite_twice_eq_one_iff (hx : x ≠ VF) (hy : y ≠ VF) :
    ((s.drawSprite x y n).drawSprite x y n).getReg VF = 0x01 ↔
      ∃ X Y, X < s.width ∧ Y < s.height ∧ DrwCovers x y n s X Y ∧ s.pixel X Y = 0x00 := by
  rw [getReg_VF_drawSprite_eq_one_iff]
  refine exists₂_congr fun X Y => and_congr_right fun (hX : X < s.width) => and_congr_right fun _ => ?_
  rw [drwCovers_drawSprite_iff hx hy]
  refine and_congr_right fun hc => ?_
  rw [pixel_drawSprite_of_covers hX hc, toggle_eq_set_iff]

end Sys2Proof.Machine
end

section
/-! CLAIMS. The display (44_display). -/

namespace Sys2Proof.Machine

/-! ### Tier 2 -/

/-- Settles O51, on the two sides of the range check: the toggled offsets are those of the covered pixels. -/
theorem drwTogglesTheCoveredPixels : Obligations.DrwTogglesTheCoveredPixels := by
  refine fun x y n s => ⟨decode_encode (.drw x y n), fun hfits => ?_, fun hout => ?_⟩
  · exact ⟨_, exec_drw_of_fits x y hfits,
      fun _ _ hX _ => ⟨State.pixel_drawSprite_of_covers hX, State.pixel_drawSprite_of_not_covers hX⟩,
      State.getReg_VF_setReg_flag _ _, State.getReg_VF_drawSprite_eq_one_iff, rfl, rfl, fun _ => rfl,
      fun _ hz => State.getReg_drawSprite x y n (List.mem_singleton.not.mp hz), rfl⟩
  · exact ⟨_, exec_drw_of_not_fits x y hout, takesFault_raise s ..⟩

/-- Settles O52: no rows, so no offsets to toggle. -/
theorem drwOfZeroRows : Obligations.DrwOfZeroRows := by
  intro x y s hsuper
  have hrows := spriteRows_zero hsuper
  have hdrawn : toggleAll s.display (s.drwOffsets x y 0x0#4) = (s.display, false) :=
    congrArg (toggleAll s.display) (State.drwOffsets_of_no_rows x y hrows)
  have hdisplay : (s.drawSprite x y 0x0#4).display = s.display := congrArg Prod.fst hdrawn
  refine ⟨_, exec_drw_of_fits x y (spriteFits_of_no_rows hrows), hdisplay, ?_, rfl, ?_, fun _ => rfl,
    fun _ hz => State.getReg_drawSprite x y _ (List.mem_singleton.not.mp hz), ?_⟩
  · rw [s.getReg_VF_drawSprite, hdrawn]; rfl
  · exact congrArg (fun d => s.events ++ [.displayUpdate d s.width s.height]) hdisplay
  · exact congrArg (fun d => { s.drawSprite x y 0x0#4 with display := d }) hdisplay

/-- Settles O53: both draws cover the same pixels. The proof needs no canonical display: a toggle is undone by a second one
whatever the byte. -/
theorem drawingTwiceRestoresTheDisplay : Obligations.DrawingTwiceRestoresTheDisplay := by
  intro x y n s t u _ hx hy hfits hfirst hsecond
  cases (exec_drw_of_fits x y hfits).symm.trans hfirst
  cases (exec_drw_of_fits (s := s.drawSprite x y n) x y hfits).symm.trans hsecond
  exact ⟨fun _ _ hX _ => State.pixel_drawSprite_twice hx hy hX, State.getReg_VF_drawSprite_eq_one_iff,
    State.getReg_VF_drawSprite_twice_eq_one_iff hx hy⟩

/-- Settles O27, from who raises an event. -/
theorem onlyDrawingRaisesAnEvent : Obligations.OnlyDrawingRaisesAnEvent := fun _ _ _ h => exec_event_writers h

/-- Settles O50: the buffer is the empty store, which reads 0x00 everywhere. -/
theorem clsClearsTheDisplay : Obligations.ClsClearsTheDisplay :=
  ⟨decode_encode .cls, fun _ => ⟨rfl, rfl, _, rfl, fun _ _ _ _ => rfl, ⟨[], rfl, displayBytes_clear _ _⟩, rfl,
    fun _ => rfl, fun _ _ => rfl, rfl⟩⟩

end Sys2Proof.Machine
end

section
/-! SUPPORT. The key and timer instructions (45_keys_timers R180 to R185): the suspended core, the tick it waits across, the
skip that takes the other way, and a transaction on the timer pair. -/

namespace Sys2Proof.Machine

variable {i : Instr} {s t u : State} {x : Nibble}

/-! ### The key wait -/

/-- `s` with the core suspended until a key comes for `V[x]` (R182). -/
def State.awaitKey (s : State) (x : Nibble) : State := { s with keyDest := x, runState := .awaitingKey }

theorem exec_getK (x : Nibble) (s : State) : exec (.getK x) s = .next (s.awaitKey x) := rfl

/-- A running core at a `GetK` suspends (R182). -/
theorem step_eq_awaitKey_of_fetch (hu : CoreMoves s u) (hr : s.runState = .running) (hp : s.pc.toNat ≤ 0xFFE)
    (hw : s.fetch16 s.pc.toNat = encode (.getK x)) : step s = .next (u.awaitKey x) :=
  (step_eq_exec_of_decode hu hr hp (hw ▸ decode_encode (.getK x))).trans (exec_getK x u)

theorem SameCore.keyDest_eq (h : SameCore s t) : t.keyDest = s.keyDest := by
  obtain ⟨-, -, ht⟩ := h
  rw [ht]

theorem SameCore.pc_eq (h : SameCore s t) : t.pc = s.pc := by
  obtain ⟨-, -, ht⟩ := h
  rw [ht]

/-! ### The key skips -/

/-- What a skip with the opposite condition does. -/
theorem skip_not_completes {c : Bool} (h : exec i s = .next (s.skip !c)) :
    ∃ t, exec i s = .next t ∧ t.pc = s.pc + (if c then 2 else 4) ∧ OnlyPc s t := by
  obtain ⟨t, ht, hpc, hframe, -⟩ := skip_completes h
  refine ⟨t, ht, ?_, hframe⟩
  cases c <;> exact hpc

/-! ### The timer pair -/

/-- What a transaction on the timer pair does (R184, R185, R214). -/
theorem atomicPairUpdate_completes {f : Byte → Byte → Byte × Byte} (h : exec i s = .next (s.atomicPairUpdate f).advance) :
    ∃ t, exec i s = .next t ∧ t.delay = (f s.delay s.sound).1 ∧ t.sound = (f s.delay s.sound).2 ∧ t.pc = s.pc + 2 ∧
      OnlyTimersAndPc s t :=
  ⟨_, h, s.delay_atomicPairUpdate f, s.sound_atomicPairUpdate f, rfl, onlyTimersAndPc_atomicPairUpdate s f⟩

theorem exec_setD (x : Nibble) (s : State) :
    exec (.setD x) s = .next (s.atomicPairUpdate fun _ snd => (s.getReg x, snd)).advance := rfl

theorem exec_setS (x : Nibble) (s : State) :
    exec (.setS x) s = .next (s.atomicPairUpdate fun dly _ => (dly, s.getReg x)).advance := rfl

end Sys2Proof.Machine
end

section
/-! CLAIMS. Keys and timers (45_keys_timers). -/

namespace Sys2Proof.Machine

/-! ### Tier 2 -/

/-- Settles O56, step by step: the core suspends, the tick leaves what the core owns, the key event is the wake-up. -/
theorem getKDeliversTheKey : Obligations.GetKDeliversTheKey := by
  intro x id s rest hr hp hw hs
  have hcore : CoreMoves s { s with schedule := .tick :: .keyEvent id :: rest } := ⟨_, hs, rfl⟩
  have hsuspend := step_eq_awaitKey_of_fetch hcore hr hp hw
  have htick : TimerMoves ({ s with schedule := .tick :: .keyEvent id :: rest }.awaitKey x)
      ({ s with schedule := .keyEvent id :: rest }.awaitKey x) := .inr ⟨_, rfl, rfl⟩
  have hheld := sameCore_tick_of_timerMoves htick
  obtain ⟨v, hwake, hkey, hpc, hrun, hmem, hregs, -⟩ :=
    keyEventWakesTheWaitingCore _ id rest hheld.runState_eq (State.tick_schedule _)
  rw [hheld.keyDest_eq] at hkey hregs
  rw [hheld.pc_eq] at hpc
  obtain ⟨hmemHeld, hregsHeld, -⟩ := hheld
  exact ⟨_, _, v, hsuspend, step_of_timerMoves htick, hwake, rfl, State.tick_runState _, hkey, hpc, hrun,
    fun z hz => (hregs z hz).trans (hregsHeld z List.not_mem_nil), fun a => (hmem a).trans (hmemHeld a)⟩

/-! ### Tier 1 -/

/-- Settles O54: the two are skips on one level, with opposite conditions. -/
theorem keySkips : Obligations.KeySkips := by
  refine fun x s => ⟨decode_encode (.skp x), decode_encode (.sknp x), ?_, skip_not_completes (exec_sknp x s)⟩
  obtain ⟨t, hskip, hpc, hframe, -⟩ := skip_completes (exec_skp x s)
  exact ⟨t, hskip, hpc, hframe⟩

/-- Settles O55: the suspension alone. -/
theorem getKSuspendsTheCore : Obligations.GetKSuspendsTheCore := fun x s =>
  ⟨decode_encode (.getK x), s.awaitKey x, exec_getK x s, rfl, rfl, rfl, fun _ => rfl, fun _ _ => rfl, rfl⟩

/-- Settles O57: a read of the pair, and two transactions that each give one half back. -/
theorem timerInstructions : Obligations.TimerInstructions := by
  refine fun x s => ⟨decode_encode (.getD x), decode_encode (.setD x), decode_encode (.setS x), setReg_completes rfl,
    atomicPairUpdate_completes (exec_setD x s), ?_⟩
  obtain ⟨t, hset, hdelay, hsound, hrest⟩ := atomicPairUpdate_completes (exec_setS x s)
  exact ⟨t, hset, hsound, hdelay, hrest⟩

end Sys2Proof.Machine
end

section
/-! SUPPORT. Faults, the Timer Service and its fairness (60_exceptions R200 to R217): why an instruction halts the core, what a
tick finds and leaves, where a run can stop, and who changes `delay` and the beeps raised so far. -/

namespace Sys2Proof.Machine

variable {i : Instr} {s t u : State}

/-! ### Why an instruction halts the core -/

/-- The conditions R200, R201, R202 and R205 name for a fault of kind `k` in the execution of `i`. -/
def FaultCondition (i : Instr) (s : State) (k : ErrorKind) : Prop :=
  (k = .stackOverflow ∧ (∃ nnn, i = .call nnn) ∧ s.sp.val = 16) ∨
  (k = .stackUnderflow ∧ i = .ret ∧ s.sp.val = 0) ∨
  (k = .addressOutOfRange ∧
    ((∃ x, i = .std x ∧ 0xFFF < s.index.toNat + 2) ∨ (∃ x, i = .str x ∧ 0xFFF < s.index.toNat + x.toNat) ∨
      (∃ x, i = .ldr x ∧ 0xFFF < s.index.toNat + x.toNat) ∨ ∃ x y n, i = .drw x y n ∧ ¬SpriteFits s n))

/-- An instruction that halts a running core has raised a fault, and under its condition: the six that can fault otherwise
complete, and a completed instruction leaves `run_state` or waits for a key. -/
theorem raise_of_exec_halts (hr : s.runState = .running) (h : exec i s = .next t) (hh : t.runState = .halted) :
    ∃ k, FaultCondition i s k ∧ t = s.raise k (encode i) := by
  cases i
  case call nnn =>
    rcases execCall_cases s nnn with ⟨hfull, h'⟩ | ⟨_, _, h', -⟩ <;> cases h'.symm.trans h
    · exact ⟨_, .inl ⟨rfl, ⟨nnn, rfl⟩, hfull⟩, rfl⟩
    · cases hr.symm.trans hh
  case ret =>
    rcases execRet_cases s with ⟨hempty, h'⟩ | ⟨_, _, h', -⟩ <;> cases h'.symm.trans h
    · exact ⟨_, .inr (.inl ⟨rfl, rfl, hempty⟩), rfl⟩
    · cases hr.symm.trans hh
  case std x =>
    rcases execStd_cases s x with ⟨habove, h'⟩ | ⟨_, -, -, h'⟩ <;> cases h'.symm.trans h
    · exact ⟨_, .inr (.inr ⟨rfl, .inl ⟨x, rfl, habove⟩⟩), rfl⟩
    · cases hr.symm.trans hh
  case str x =>
    rcases execStr_cases s x with ⟨habove, h'⟩ | ⟨_, -, -, h'⟩ <;> cases h'.symm.trans h
    · exact ⟨_, .inr (.inr ⟨rfl, .inr (.inl ⟨x, rfl, habove⟩)⟩), rfl⟩
    · cases hr.symm.trans hh
  case ldr x =>
    rcases execLdr_cases s x with ⟨habove, h'⟩ | ⟨_, -, -, h'⟩ <;> cases h'.symm.trans h
    · exact ⟨_, .inr (.inr ⟨rfl, .inr (.inr (.inl ⟨x, rfl, habove⟩))⟩), rfl⟩
    · cases hr.symm.trans hh
  case drw x y n =>
    rcases execDrw_cases s x y n with ⟨hfits, h'⟩ | ⟨_, _, -, -, h'⟩ <;> cases h'.symm.trans h
    · exact ⟨_, .inr (.inr ⟨rfl, .inr (.inr (.inr ⟨x, y, n, rfl, hfits⟩))⟩), rfl⟩
    · cases hr.symm.trans hh
  case getK x => cases h; cases hh
  all_goals cases h; cases hr.symm.trans hh

/-! ### The tick -/

theorem countDown_eq (v : Byte) : countDown v = if 0 < v.toNat then v - 1 else 0 := by
  unfold countDown
  by_cases hv : v = 0x00#8
  · rw [if_pos hv, hv]; rfl
  · rw [if_neg hv, if_pos (by bv_omega)]

theorem toNat_countDown_lt {v : Byte} (h : v ≠ 0) : (countDown v).toNat < v.toNat := by
  rw [countDown_toNat]
  bv_omega

theorem delay_of_timerMoves (h : TimerMoves s u) : u.delay = s.delay := by rw [eq_of_timerMoves h]; rfl

theorem sound_of_timerMoves (h : TimerMoves s u) : u.sound = s.sound := by rw [eq_of_timerMoves h]; rfl

theorem events_of_timerMoves (h : TimerMoves s u) : u.events = s.events := by rw [eq_of_timerMoves h]

/-! ### The beeps raised so far -/

/-- No instruction raises a beep (R23, R213). -/
theorem beeps_of_exec (h : exec i s = .next t) : t.events.count .beep = s.events.count .beep := by
  rcases exec_event_writers h with hsame | ⟨-, hupdate⟩
  · rw [hsame]
  · rw [hupdate, List.count_append, List.count_singleton]
    rfl

theorem beeps_of_coreStep (h : coreStep s = .next t) : t.events.count .beep = s.events.count .beep := by
  rcases coreStep_cases h with ⟨-, rfl⟩ | ⟨-, -, rfl⟩ | ⟨-, -, _, -, rfl⟩ | ⟨-, -, i, -, hexec⟩
  · rfl
  · rfl
  · rfl
  · exact beeps_of_exec hexec

theorem presentKey_events (s : State) (id : Nibble) : (s.presentKey id).events = s.events := by
  unfold State.presentKey
  split <;> rfl

/-- A tick that does not find `sound = 1` raises nothing (R213). -/
theorem tick_events_of_sound_ne (h : s.sound ≠ 0x01#8) : s.tick.events = s.events := by
  rw [State.tick_events, if_neg h]

/-! ### Where a run can stop -/

/-- The model's two stops: the move of a halted core, and a reset with an image that is too long (log entries 8 and 14). -/
def Stops (s : State) : Prop :=
  (s.runState = .halted ∧ (∃ u, CoreMoves s u) ∧ step s = .fault .coreHalted) ∨
  ∃ image straps rest, s.schedule = .reset image straps :: rest ∧ 3584 < image.length ∧ step s = .refused .imageTooLarge

/-- A running core has a step: the fetch fault, the illegal-instruction handler, or an instruction (R80, R81, R87). -/
theorem exists_runInstruction_eq_next (s : State) : ∃ t, runInstruction s = .next t := by
  unfold runInstruction
  split
  · exact ⟨_, rfl⟩
  · split
    · exact exists_exec_eq_next _ s
    · exact ⟨_, rfl⟩

theorem step_of_coreMoves_of_running (hu : CoreMoves s u) (hr : s.runState = .running) : step s = runInstruction u := by
  simp only [step_of_coreMoves hu, coreStep, runState_of_coreMoves hu, hr]

theorem imageFits_eq_false_iff {image : List Byte} : imageFits image = false ↔ 3584 < image.length := by
  unfold imageFits
  rw [decide_eq_false_iff_not, Nat.not_le]

/-- A step answers a next state, or the run is at one of the two stops. -/
theorem step_eq_next_or_stops (s : State) : (∃ t, step s = .next t) ∨ Stops s := by
  rcases hs : s.schedule with _ | ⟨_ | _ | down | id | ⟨image, straps⟩, rest⟩
  case nil => exact .inl ⟨_, step_of_timerMoves (.inl ⟨hs, rfl⟩)⟩
  case cons.core =>
    have hu : CoreMoves s { s with schedule := rest } := ⟨rest, hs, rfl⟩
    cases hr : s.runState with
    | running =>
      obtain ⟨t, hrun⟩ := exists_runInstruction_eq_next { s with schedule := rest }
      exact .inl ⟨t, (step_of_coreMoves_of_running hu hr).trans hrun⟩
    | awaitingKey => exact .inl ⟨_, step_of_coreMoves_of_waiting hu hr⟩
    | halted => exact .inr (.inl ⟨hr, ⟨_, hu⟩, step_of_coreMoves_of_halted hu hr⟩)
  case cons.tick => exact .inl ⟨_, step_of_timerMoves (.inr ⟨rest, hs, rfl⟩)⟩
  case cons.keyLevels => exact .inl ⟨{ s with schedule := rest, keyDown := down }, by simp only [step, cycle, hs, moveStep]⟩
  case cons.keyEvent => exact .inl ⟨_, step_of_keyEvent hs⟩
  case cons.reset =>
    cases hfits : imageFits image with
    | true =>
      exact .inl ⟨{ s with schedule := rest }.hostReset image straps,
        by simp only [step, cycle, hs, moveStep, resetStep, hfits, if_true]⟩
    | false =>
      refine .inr (.inr ⟨image, straps, rest, hs, imageFits_eq_false_iff.mp hfits, ?_⟩)
      simp only [step, cycle, hs, moveStep, resetStep, hfits, Bool.false_eq_true, if_false]

/-! ### Who changes `delay` -/

/-- The core moves next and runs a `SetD`. -/
def RunsSetD (s : State) : Prop :=
  (∃ u, CoreMoves s u) ∧ s.runState = .running ∧ ∃ x, decode (s.fetch16 s.pc.toNat) = .ok (.setD x)

/-- Of the instructions only `SetD` changes `delay` (R184, R185). -/
theorem delay_of_exec (h : exec i s = .next t) : t.delay = s.delay ∨ ∃ x, i = .setD x := by
  rcases exec_timer_writers h with hsame | ⟨x, rfl⟩ | ⟨x, rfl⟩
  · exact .inl (congrArg (BitVec.extractLsb' 8 8) hsame)
  · exact .inr ⟨x, rfl⟩
  · cases h
    rw [State.advance_delay, State.delay_atomicPairUpdate]
    exact .inl rfl

theorem delay_of_coreStep (hu : CoreMoves s u) (h : coreStep u = .next t) : t.delay = s.delay ∨ RunsSetD s := by
  have hdelay : u.delay = s.delay := by obtain ⟨rest, -, rfl⟩ := hu; rfl
  rw [← hdelay]
  rcases coreStep_cases h with ⟨-, rfl⟩ | ⟨-, -, rfl⟩ | ⟨-, -, _, -, rfl⟩ | ⟨hr, -, i, hd, hexec⟩
  · exact .inl rfl
  · exact .inl rfl
  · exact .inl rfl
  · rcases delay_of_exec hexec with hsame | ⟨x, rfl⟩
    · exact .inl hsame
    · rw [fetch16_of_coreMoves hu] at hd
      exact .inr ⟨⟨u, hu⟩, runState_of_coreMoves hu ▸ hr, x, hd⟩

theorem presentKey_delay (s : State) (id : Nibble) : (s.presentKey id).delay = s.delay := by
  unfold State.presentKey
  split <;> rfl

/-- `delay` is changed by a tick, by a `SetD` and by a reset, and by no other step (R184, R212, R240). -/
theorem delay_of_step (h : step s = .next t) :
    t.delay = s.delay ∨ (∃ u, TimerMoves s u) ∨ RunsSetD s ∨ ∃ image straps rest, s.schedule = .reset image straps :: rest := by
  rcases step_cases h with ⟨u, hu, hcore⟩ | ⟨u, hu, -⟩ |
    ⟨rest, ⟨down, -, rfl⟩ | ⟨id, -, rfl⟩ | ⟨image, straps, hs, -, -⟩⟩
  · exact (delay_of_coreStep hu hcore).imp_right fun hset => .inr (.inl hset)
  · exact .inr (.inl ⟨u, hu⟩)
  · exact .inl rfl
  · exact .inl (presentKey_delay _ id)
  · exact .inr (.inr (.inr ⟨image, straps, rest, hs⟩))

/-- The end of a wait for `delay = 0`: it is reached, or the core comes to run a `SetD`, or is halted and would move, or the
host resets. -/
def DelayWaitEnds (s : State) : Prop :=
  s.delay = 0 ∨
    (∃ u, CoreMoves s u ∧ (s.runState = .halted ∨
      s.runState = .running ∧ ∃ x, decode (s.fetch16 s.pc.toNat) = .ok (.setD x))) ∨
    ∃ image straps rest, s.schedule = .reset image straps :: rest

theorem RunsSetD.delayWaitEnds (h : RunsSetD s) : DelayWaitEnds s := by
  obtain ⟨⟨u, hu⟩, hset⟩ := h
  exact .inr (.inl ⟨u, hu, .inr hset⟩)

theorem Stops.delayWaitEnds (h : Stops s) : DelayWaitEnds s := by
  rcases h with ⟨hh, ⟨u, hu⟩, -⟩ | ⟨image, straps, rest, hs, -⟩
  · exact .inr (.inl ⟨u, hu, .inl hh⟩)
  · exact .inr (.inr ⟨image, straps, rest, hs⟩)

/-- How near a wait for `delay = 0` is to its end: the delay, then the moves before the tick that must come. -/
def delayDistance (s : State) : Nat ×ₗ Nat := toLex (s.delay.toNat, s.schedule.length)

/-- Until the wait ends every step answers a next state nearer to its end: a tick lowers `delay`, any other step shortens the
schedule and keeps `delay`. -/
theorem delayDistance_decreases (h : ¬DelayWaitEnds s) : ∃ t, step s = .next t ∧ delayDistance t < delayDistance s := by
  obtain ⟨t, hstep⟩ : ∃ t, step s = .next t := (step_eq_next_or_stops s).resolve_right fun hstop => h hstop.delayWaitEnds
  refine ⟨t, hstep, Prod.Lex.toLex_lt_toLex.mpr ?_⟩
  by_cases htick : ∃ u, TimerMoves s u
  · obtain ⟨u, hu⟩ := htick
    cases (step_of_timerMoves hu).symm.trans hstep
    rw [State.tick_delay, delay_of_timerMoves hu]
    exact .inl (toNat_countDown_lt fun hzero => h (.inl hzero))
  · have hshorter : t.schedule.length + 1 = s.schedule.length := (schedule_length_of_step hstep).resolve_left htick
    rcases delay_of_step hstep with hsame | htimer | hset | hreset
    · exact .inr ⟨congrArg BitVec.toNat hsame, by omega⟩
    · exact absurd htimer htick
    · exact absurd hset.delayWaitEnds h
    · exact absurd (.inr (.inr hreset)) h

end Sys2Proof.Machine
end

section
/-! CLAIMS. Faults, the tick and fairness (60_exceptions). -/

namespace Sys2Proof.Machine

/-! ### Tier 2 -/

/-- Settles O58, by induction on the moves scheduled: a step that is no tick and no stop takes one of them. -/
theorem timerServiceTicksAgainAndAgain : Obligations.TimerServiceTicksAgainAndAgain := by
  intro s
  induction hlen : s.schedule.length using Nat.strong_induction_on generalizing s with
  | _ m ih =>
    rcases step_eq_next_or_stops s with ⟨t, hstep⟩ | hstop
    · rcases schedule_length_of_step hstep with ⟨u, hu⟩ | hshorter
      · exact ⟨0, s, Nat.zero_le _, rfl, .inl ⟨u, hu, step_of_timerMoves hu⟩⟩
      · obtain ⟨n, v, hn, hsteps, hend⟩ := ih t.schedule.length (by omega) t rfl
        exact ⟨n + 1, v, by omega, ⟨t, hstep, hsteps⟩, hend⟩
    · exact ⟨0, s, Nat.zero_le _, rfl, .inr hstop⟩

/-- Settles O59, by well-founded induction on the distance to the wait's end. -/
theorem delayReachesZero : Obligations.DelayReachesZero := by
  intro s
  induction s using WellFounded.induction (InvImage.wf delayDistance wellFounded_lt) with
  | _ s ih =>
    by_cases hend : DelayWaitEnds s
    · exact ⟨0, s, rfl, hend⟩
    · obtain ⟨t, hstep, hnearer⟩ := delayDistance_decreases hend
      obtain ⟨n, v, hsteps, hv⟩ := ih t hnearer
      exact ⟨n + 1, v, ⟨t, hstep, hsteps⟩, hv⟩

/-- Settles O25, from the fault that halted the core. -/
theorem instructionFaultsArePrecise : Obligations.InstructionFaultsArePrecise := by
  intro i s t hr h hh
  obtain ⟨k, hcondition, rfl⟩ := raise_of_exec_halts hr h hh
  exact ⟨takesFault_raise s k (encode i), hcondition⟩

/-- Settles O16: the tick as it finds `sound`, then agent by agent. -/
theorem beepsComeOnlyFromTheTick : Obligations.BeepsComeOnlyFromTheTick := by
  refine fun s t h => ⟨fun u hu hone => ?_, fun hnone => ?_⟩
  · cases (step_of_timerMoves hu).symm.trans h
    have hsound : u.sound = 0x01#8 := (sound_of_timerMoves hu).trans hone
    rw [State.tick_events, State.tick_sound, if_pos hsound, hsound, events_of_timerMoves hu]
    exact ⟨rfl, rfl⟩
  · rcases step_cases h with ⟨u, ⟨rest, -, rfl⟩, hcore⟩ | ⟨u, hu, rfl⟩ |
      ⟨rest, ⟨down, -, rfl⟩ | ⟨id, -, rfl⟩ | ⟨image, straps, hs, -, rfl⟩⟩
    · have hbeeps := beeps_of_coreStep hcore
      exact .inl hbeeps
    · rw [tick_events_of_sound_ne (sound_of_timerMoves hu ▸ hnone u hu), events_of_timerMoves hu]
      exact .inl rfl
    · exact .inl rfl
    · rw [presentKey_events]
      exact .inl rfl
    · exact .inr ⟨image, straps, rest, hs, rfl⟩

/-- Settles O17: each transaction gives the half it does not write back, so the tick counts the same value down in either
order, and the written half is counted down only when the tick comes after. -/
theorem timerTransactionsNeverTear : Obligations.TimerTransactionsNeverTear := by
  intro s a x ha
  cases ha
  refine ⟨⟨_, exec_setD x s.tick, ?_, ?_, ?_, ?_⟩, fun c hc => ?_⟩
  · rw [State.advance_delay, State.delay_atomicPairUpdate, State.tick_getReg]
  · simp only [State.advance_sound, State.sound_atomicPairUpdate, State.tick_sound]
  · simp only [State.advance_events, State.atomicPairUpdate_events, State.advance_sound, State.sound_atomicPairUpdate,
      State.tick_events]
  · rw [State.tick_delay, countDown_toNat, State.advance_delay, State.delay_atomicPairUpdate]
  · cases hc
    refine ⟨_, exec_setS x s.tick, ?_, ?_, ?_⟩
    · rw [State.advance_sound, State.sound_atomicPairUpdate, State.tick_getReg]
    · simp only [State.advance_delay, State.delay_atomicPairUpdate, State.tick_delay]
    · rw [State.tick_sound, countDown_toNat, State.advance_sound, State.sound_atomicPairUpdate]

/-! ### Tier 1 -/

/-- Settles O8: the fetch fault of the core's next move. -/
theorem fetchAboveTheTopTakesFlowGuard : Obligations.FetchAboveTheTopTakesFlowGuard := by
  rintro s _ ⟨rest, hs, rfl⟩ hr hp
  have hnext : { s with schedule := .core :: rest } = s := by rw [← hs]
  obtain ⟨t, w, hstep, hfault⟩ := nextFetchFaults hp hr rest
  exact ⟨t, w, hnext ▸ hstep, hfault⟩

/-- Settles O14: only a waiting core takes the key. -/
theorem keyEventWhileRunningIsIgnored : Obligations.KeyEventWhileRunningIsIgnored := by
  intro s id rest hr hs
  rw [step_of_keyEvent hs, presentKey_of_not_waiting (hr ▸ nofun)]

/-- Settles O15: the tick of the state it finds, which has the timers and events of `s`. -/
theorem tickCountsBothTimersDown : Obligations.TickCountsBothTimersDown := by
  intro s u hu
  obtain ⟨hmem, hregs, -⟩ := sameCore_tick_of_timerMoves hu
  refine ⟨u.tick, step_of_timerMoves hu, ?_, ?_, ?_, hmem, hregs, ?_⟩
  · rw [State.tick_delay, delay_of_timerMoves hu, countDown_eq]
  · rw [State.tick_sound, sound_of_timerMoves hu, countDown_eq]
  · rw [State.tick_events, sound_of_timerMoves hu, events_of_timerMoves hu]
    rfl
  · rw [State.tick_eq]

end Sys2Proof.Machine
end

section
/-! SUPPORT. What the host's reset leaves of the state (70_reset). -/

namespace Sys2Proof.Machine

variable {s : State} {image : List Byte} {straps : Straps} {rest : List Move}

/-! ### The step -/

/-- A reset whose turn it is takes its move from the schedule (R240). -/
theorem step_of_reset (hs : s.schedule = .reset image straps :: rest) :
    step s = resetStep image straps { s with schedule := rest } := by
  simp only [step, cycle, hs, moveStep]

/-- The loader takes an image that fits (R240). -/
theorem resetStep_of_length_le (h : image.length ≤ 3584) : resetStep image straps s = .next (s.hostReset image straps) :=
  if_pos (decide_eq_true h)

/-- The loader rejects a longer one (R242). -/
theorem resetStep_of_lt_length (h : 3584 < image.length) : resetStep image straps s = .refused .imageTooLarge := by
  rw [resetStep, imageFits_eq_false_iff.mpr h]
  exact if_neg Bool.false_ne_true

/-! ### What is read after it -/

/-- Memory holds the image at the load base and the reset contents everywhere else (R41, R240). -/
theorem hostReset_readMem (a : Nat) :
    (s.hostReset image straps).readMem a =
      if h : 0x200 ≤ a ∧ a < 0x200 + image.length then image[a - 0x200]'(by omega) else resetByte a :=
  read_storeBytes image

theorem hostReset_readMem_image {a : Nat} (h : 0x200 ≤ a ∧ a < 0x200 + image.length) :
    (s.hostReset image straps).readMem a = image[a - 0x200]'(by omega) :=
  (hostReset_readMem a).trans (dif_pos h)

theorem hostReset_readMem_outside {a : Nat} (h : a < 0x200 ∨ 0x200 + image.length ≤ a) :
    (s.hostReset image straps).readMem a = resetByte a :=
  (hostReset_readMem a).trans (dif_neg (by omega))

theorem hostReset_getReg (z : Nibble) : (s.hostReset image straps).getReg z = 0x00#8 := reset_getReg z

theorem hostReset_stack (i : Fin 16) : (s.hostReset image straps).stack[i.val] = 0x0000#16 := Vector.getElem_replicate i.isLt

/-- Both halves of the cleared pair are 0 (R16, R240). -/
theorem hostReset_delay : (s.hostReset image straps).delay = 0x00#8 := (by decide : BitVec.extractLsb' 8 8 0x0000#16 = 0x00#8)

theorem hostReset_sound : (s.hostReset image straps).sound = 0x00#8 := (by decide : BitVec.extractLsb' 0 8 0x0000#16 = 0x00#8)

/-- The display is clear in either geometry (R18, R240). -/
theorem hostReset_pixel (X Y : Nat) : (s.hostReset image straps).pixel X Y = 0x00#8 := rfl

end Sys2Proof.Machine
end

section
/-! CLAIMS. The host's reset (70_reset). -/

namespace Sys2Proof.Machine

/-! ### Tier 2 -/

/-- Settles O18: memory by where the image lies, every other piece of state read off `State.hostReset`. -/
theorem hostResetLeavesTheResetValues : Obligations.HostResetLeavesTheResetValues := by
  intro s image straps rest hs
  rw [step_of_reset hs]
  refine ⟨fun hfits => ?_, resetStep_of_lt_length⟩
  refine ⟨_, resetStep_of_length_le hfits, ?font, ?image, ?zero, hostReset_getReg, rfl, rfl, rfl, hostReset_stack,
    hostReset_delay, hostReset_sound, rfl, rfl, rfl, rfl, rfl, fun X Y _ _ => hostReset_pixel X Y, rfl, rfl, rfl, rfl, rfl, rfl⟩
  case font => exact fun a ha => hostReset_readMem_outside (.inl (by omega))
  case image => exact fun a ha => hostReset_readMem_image ha
  case zero => exact fun a habove hout => (hostReset_readMem_outside hout).trans (resetByte_above_font habove)

end Sys2Proof.Machine
end
